-- ==== Sys2Proof/Word.lean ====
section
/-!
DEFINITION. The words of the block (00_scope.md R12, 30_encoding.md R65, R66): every value is a non-negative integer of
stated width, and bit 0 is the least significant bit.
-/

namespace Sys2Proof

/-- A word of the MT state array, a `DATA` field, a register as `RDREG` reads it (R12, R20, R34). -/
abbrev Word := BitVec 64

/-- An `IDX` field: a slot index, a tap or a register number (R71). -/
abbrev Index := BitVec 16

/-- A command word `RSVD_OP_IDX_DATA` (R65). -/
abbrev CmdWord := BitVec 96

/-- A response word `RRSVD_STATUS_DATA` (R66). -/
abbrev RspWord := BitVec 72

end Sys2Proof
end

