-- ==== Sys2Proof/Config.lean ====
section
/-!
DEFINITION. What one instance of the block fixes at synthesis (00_scope.md R9): the register length and the word size of
the TG engine. The legal ranges of R9 are fields of the structure, so a value of the type describes an instance of the
block, and a configuration outside the bounds cannot be built (R9, 93_implementation_defined.md U13).
-/

namespace Sys2Proof

/-- The synthesis parameters `TG_N` and `TG_W` with the bounds of R9. -/
structure Config where
  /-- `TG_N`, the number of words of the TG state array. -/
  tgN : Nat
  /-- `TG_W`, the width of a TG word in bits. -/
  tgW : Nat
  tgN_pos : 1 ≤ tgN := by decide
  tgN_le : tgN ≤ 65535 := by decide
  tgW_pos : 1 ≤ tgW := by decide
  tgW_le : tgW ≤ 64 := by decide
  deriving DecidableEq, Repr

/-- The reference defaults of R9: register length 25, word size 16. -/
def Config.default : Config := { tgN := 25, tgW := 16 }

/-- A configuration outside the bounds of R9 is refused: `none`. -/
def Config.mk? (n w : Nat) : Option Config :=
  if h : 1 ≤ n ∧ n ≤ 65535 ∧ 1 ≤ w ∧ w ≤ 64 then
    some { tgN := n, tgW := w, tgN_pos := h.1, tgN_le := h.2.1, tgW_pos := h.2.2.1, tgW_le := h.2.2.2 }
  else none

end Sys2Proof
end

