-- ==== Sys2Proof/Syntax.lean ====
section
/-!
DEFINITION. The commands of the block as terms: one constructor of `Instr` per row of spec/opcode_table.json
(30_encoding.md R69, R70), the fields of a command word (R65), and the lines of the assembler (R79, R80).
-/

namespace Sys2Proof

/-- A command with its operands. An operand has the width of the field that carries it (R71, R72), so every term can
be encoded; a `TG` operand is held whole here and truncated to `TG_W` bits by the command (R72). -/
inductive Instr where
  | nop
  | mtSeed (seed : Word)
  | mtExtract
  | mtRdword (idx : Index)
  | tgBegin (tap : Index) (twist : Word)
  | tgPush (word : Word)
  | tgOutput
  | tgAdvance
  | tgNext
  | tgRdword (idx : Index)
  | rdreg (regno : Index)
  deriving DecidableEq, Repr

/-- The four fields of a command word (R65). -/
structure Fields where
  rsvd : BitVec 12
  op : BitVec 4
  idx : Index
  data : Word
  deriving DecidableEq, Repr

/-- The register names of R80, in the order of their numbers. -/
inductive RegName where
  | param | mtStatus | tgStatus | tgTap | tgTwist
  deriving DecidableEq, Repr

/-- One line of the assembler (R79, R80), with its integer literals as the text gives them: a literal may be too large
for its field, and the assembler then refuses it (`Line.wellFormed`). -/
inductive Line where
  | nop
  | mtSeed (seed : Nat)
  | mtExtract
  | mtNext
  | mtRdword (idx : Nat)
  | tgBegin (tap twist : Nat)
  | tgPush (word : Nat)
  | tgOutput
  | tgAdvance
  | tgNext
  | tgRdword (idx : Nat)
  | rdreg (regno : Nat)
  | rdregName (name : RegName)
  | tgLoad (tap twist : Nat) (words : List Nat)
  | rawWord (w : Nat)
  deriving DecidableEq, Repr

/-- A statement of an assembler program (R79, R80): a line, or one of the two directives of a repetition. -/
inductive AsmStmt where
  | line (l : Line)
  | repeatBegin (k : Nat)
  | repeatEnd
  deriving DecidableEq, Repr

end Sys2Proof
end

