-- ==== Sys2Proof/WellFormed.lean ====
section
/-!
DEFINITION. What can be ill-formed: the raw fields of a command word (30_encoding.md R70, R73, R74) and the lines the
assembler is given (R79, R80). A term of `Instr` cannot: its operands have the widths of their fields.
-/

namespace Sys2Proof

/-- R70: the opcodes whose `IDX` field carries an operand. -/
def usesIdx (op : BitVec 4) : Bool := op == 0x3 || op == 0x4 || op == 0x9 || op == 0xA

/-- R70: the opcodes whose `DATA` field carries an operand. -/
def usesData (op : BitVec 4) : Bool := op == 0x1 || op == 0x4 || op == 0x5

/-- The fields of a legal command: `RSVD` 0 (R74), an opcode that is not reserved (R73), and 0 in every field the
opcode does not use (R70). -/
def Fields.wellFormed (f : Fields) : Bool :=
  f.rsvd == 0 && decide (f.op.toNat < 0xB) && (usesIdx f.op || f.idx == 0) && (usesData f.op || f.data == 0)

/-- R79: an `idx` literal fits its field. -/
def fitsIdx (n : Nat) : Bool := decide (n ≤ 65535)

/-- R79: a `data` literal fits its field; a `TG` value at or above 2^`TG_W` is accepted, the hardware truncates it. -/
def fitsData (n : Nat) : Bool := decide (n < 2 ^ 64)

/-- The lines the assembler accepts (R79, R80), for an instance with the parameters `cfg`: every literal fits its
field, `.word` fits 96 bits, and `TG.LOAD` has exactly `TG_N` words. DESIGN CHOICE (notes/assumptions/12.md): a `.word` literal of
fewer than 24 digits is accepted and zero-extended, where R79 says `.word <96-bit hex>` only. -/
def Line.wellFormed (cfg : Config) : Line → Bool
  | .nop | .mtExtract | .mtNext | .tgOutput | .tgAdvance | .tgNext | .rdregName _ => true
  | .mtSeed seed => fitsData seed
  | .mtRdword idx => fitsIdx idx
  | .tgBegin tap twist => fitsIdx tap && fitsData twist
  | .tgPush word => fitsData word
  | .tgRdword idx => fitsIdx idx
  | .rdreg regno => fitsIdx regno
  | .tgLoad tap twist words =>
    fitsIdx tap && fitsData twist && words.all fitsData && decide (words.length = cfg.tgN)
  | .rawWord w => decide (w < 2 ^ 96)

end Sys2Proof
end

