-- ==== Sys2Proof/Decode.lean ====
section
/-!
DEFINITION. The decoder of 30_encoding.md R77, total on every 96-bit command word and naming why it refuses one, and
after it the encoder, written from the tables R65, R69, R70 and R79.
-/

namespace Sys2Proof

/-- The fields of a command word (R65): `RSVD[95:84] OP[83:80] IDX[79:64] DATA[63:0]`. -/
def fieldsOf (w : CmdWord) : Fields :=
  { rsvd := w.extractLsb' 84 12, op := w.extractLsb' 80 4, idx := w.extractLsb' 64 16, data := w.extractLsb' 0 64 }

/-- Why a command word is ILLEGAL (R77). Every reason is answered with `ERR_ILLEGAL` (R157). -/
inductive Illegal where
  /-- a nonzero bit in `RSVD` (R74) -/
  | rsvdNonzero
  /-- an opcode 0xB to 0xF (R73) -/
  | opReserved
  /-- a nonzero `IDX` that the opcode does not use (R70) -/
  | idxNonzero
  /-- a nonzero `DATA` that the opcode does not use (R70) -/
  | dataNonzero
  deriving DecidableEq, Repr

/-- R70 for an opcode that uses neither field. -/
def decodeBare (f : Fields) (i : Instr) : Except Illegal Instr :=
  if f.idx ≠ 0 then .error .idxNonzero else if f.data ≠ 0 then .error .dataNonzero else .ok i

/-- R70 for an opcode that uses `IDX` only. -/
def decodeIdx (f : Fields) (i : Index → Instr) : Except Illegal Instr :=
  if f.data ≠ 0 then .error .dataNonzero else .ok (i f.idx)

/-- R70 for an opcode that uses `DATA` only. -/
def decodeData (f : Fields) (i : Word → Instr) : Except Illegal Instr :=
  if f.idx ≠ 0 then .error .idxNonzero else .ok (i f.data)

/-- R77 on the fields: `RSVD` first, then the opcode (R69), then the unused fields. -/
def decodeFields (f : Fields) : Except Illegal Instr :=
  if f.rsvd ≠ 0 then .error .rsvdNonzero
  else match f.op.toNat with
    | 0x0 => decodeBare f .nop
    | 0x1 => decodeData f .mtSeed
    | 0x2 => decodeBare f .mtExtract
    | 0x3 => decodeIdx f .mtRdword
    | 0x4 => .ok (.tgBegin f.idx f.data)
    | 0x5 => decodeData f .tgPush
    | 0x6 => decodeBare f .tgOutput
    | 0x7 => decodeBare f .tgAdvance
    | 0x8 => decodeBare f .tgNext
    | 0x9 => decodeIdx f .tgRdword
    | 0xA => decodeIdx f .rdreg
    | _ => .error .opReserved

/-- The decoder of R77: every 96-bit word is a command with its operands, or ILLEGAL for a named reason. -/
def decode (w : CmdWord) : Except Illegal Instr := decodeFields (fieldsOf w)

/-- The instruction the decoder reads from a row's bits, numbered as spec/opcode_table.json numbers them: one 96-bit
word whose bit 0 is bit 0 of `DATA` (R65), zero above `nbits`. -/
def decodeTableWord (nbits w : Nat) : Option Instr :=
  match decode (BitVec.ofNat 96 (w % 2 ^ nbits)) with
  | .ok i => some i
  | .error _ => none

/-- The fields of a command's word: its opcode (R69) and its operands, 0 in every other field (R70, R79). -/
def Instr.fields : Instr → Fields
  | .nop => { rsvd := 0, op := 0x0, idx := 0, data := 0 }
  | .mtSeed seed => { rsvd := 0, op := 0x1, idx := 0, data := seed }
  | .mtExtract => { rsvd := 0, op := 0x2, idx := 0, data := 0 }
  | .mtRdword idx => { rsvd := 0, op := 0x3, idx := idx, data := 0 }
  | .tgBegin tap twist => { rsvd := 0, op := 0x4, idx := tap, data := twist }
  | .tgPush word => { rsvd := 0, op := 0x5, idx := 0, data := word }
  | .tgOutput => { rsvd := 0, op := 0x6, idx := 0, data := 0 }
  | .tgAdvance => { rsvd := 0, op := 0x7, idx := 0, data := 0 }
  | .tgNext => { rsvd := 0, op := 0x8, idx := 0, data := 0 }
  | .tgRdword idx => { rsvd := 0, op := 0x9, idx := idx, data := 0 }
  | .rdreg regno => { rsvd := 0, op := 0xA, idx := regno, data := 0 }

/-- The word with these fields (R65): `RSVD` in the most significant bits, `DATA` in the least. -/
def packFields (f : Fields) : CmdWord := f.rsvd ++ f.op ++ f.idx ++ f.data

/-- The encoder of R79. -/
def encode (i : Instr) : CmdWord := packFields i.fields

/-- A term's fields pass the check of a command word's fields. -/
def Instr.wellFormed (i : Instr) : Bool := i.fields.wellFormed

end Sys2Proof
end

