-- ==== Sys2Proof/Machine/State.lean ====
section
/-!
DEFINITION. The state of the block as plain data (10_state.md), the reasons a step can stop, and the state right after
reset (R33, R180, R182).
-/

namespace Sys2Proof.Machine

/-- A written slot of a state array: its index and its word. The block has no bytes (20_memory.md R49), so the unit is
the word, and a `TG` word stands in 64 bits (notes/assumptions/2.md, 3.md). -/
abbrev Cell := Nat × Word

/-- A state array (R20, R25): its written slots. A slot that is not listed holds no value (R42). -/
abbrev Memory := List Cell

/-- The one canonical form of an array: indices strictly rising. No entry can equal what an unlisted slot reads as,
since that is no value. -/
abbrev Memory.wf (m : Memory) : Prop := m.Pairwise (fun a b => a.1 < b.1)

/-- What the host drives on the input ports of R67 until the step's edge. -/
structure PortIn where
  rst : Bool
  cmdValid : Bool
  cmdWord : CmdWord
  rspReady : Bool
  deriving DecidableEq, Repr

/-- A host that offers nothing and takes nothing. -/
def PortIn.idle : PortIn := { rst := false, cmdValid := false, cmdWord := 0, rspReady := false }

/-- Why the machine stops. No instruction stops on every path, and no state that the block can reach after reset stops
for the first two reasons. -/
inductive Fault where
  /-- A read of an array slot that no command has written since reset: it holds no value (R42;
  93_implementation_defined.md U1, U2). Raised by the array reads under `MT.EXTRACT`, `MT.RDWORD`, `TG.OUTPUT`,
  `TG.ADVANCE`, `TG.NEXT` and `TG.RDWORD`, in states outside the invariant only. Safe. -/
  | unwrittenSlot
  /-- An array access outside its index range, which has no meaning (R59). Raised by the array primitives, in states
  outside the invariant only. Safe. -/
  | indexOutOfRange
  /-- The host changed `cmd_word` while it waited with `cmd_valid`: the block's behaviour is not specified and the run is
  stuck (R67, R186; U5). Raised by `step`. Safe. -/
  | cmdWordChanged
  deriving DecidableEq, Repr

/-- Why the model has no meaning for an instruction. -/
inductive Refusal where
  /-- No meaning yet; raised by a refused arm of `exec`, of which none is left. Safe. -/
  | notModelled (mnemonic : String)
  deriving DecidableEq, Repr

/-- The state of one block and of its host's side of the ports. -/
structure State where
  /-- The synthesis parameters of this instance (R9); no step changes them. -/
  cfg : Config
  /-- `MTW` (R20). -/
  mtw : Memory
  /-- `MT_CUR` (R22). -/
  mtCur : BitVec 9
  /-- `TGS` (R25), each word in 64 bits. -/
  tgs : Memory
  /-- `TG_CUR` (R26). -/
  tgCur : BitVec 16
  /-- `TG_TAP` (R27). -/
  tgTap : BitVec 16
  /-- `TG_TWIST` (R28), in 64 bits. -/
  tgTwist : Word
  /-- `TG_PHASE` (R29). -/
  tgPhase : BitVec 2
  /-- `TG_LDPTR` (R29). -/
  tgLdptr : BitVec 16
  /-- `IF_BUSY` (R41). -/
  ifBusy : Bool
  /-- The block is presenting the word in `RSP_BUF` (R41, R67). -/
  rspValid : Bool
  /-- `RSP_BUF` (R41). -/
  rspBuf : RspWord
  /-- What the host will drive on the input ports, one entry a step; after the last it drives nothing. -/
  inputs : List PortIn
  /-- The command word the host offered at the last step while `cmd_ready` was 0. -/
  heldCmd : Option CmdWord
  /-- The responses the host has taken, oldest first: the observation of R17. -/
  taken : List RspWord
  deriving DecidableEq, Repr

/-- The post-reset state of an instance with the parameters `cfg` (R33, R182). `RSP_BUF` is unspecified in R33 and 0
here (notes/assumptions/4.md). -/
def State.resetOf (cfg : Config) : State :=
  { cfg := cfg, mtw := [], mtCur := 0x1FF, tgs := [], tgCur := 0, tgTap := 0, tgTwist := 0, tgPhase := 0, tgLdptr := 0,
    ifBusy := false, rspValid := false, rspBuf := 0, inputs := [], heldCmd := none, taken := [] }

/-- The machine right after reset, with the default parameters of R9. -/
def State.reset : State := State.resetOf Config.default

end Sys2Proof.Machine
end

