-- ==== Sys2Proof/Machine/Operands.lean ====
section
/-!
DEFINITION. The constants of the MT engine (00_scope.md R7, R8), the operand forms of the commands (R13, R71, R72) and
the registers as `RDREG` reads them (10_state.md R34 to R39).
-/

namespace Sys2Proof.Machine

/-- `MT_N` (R7): the twist's loop bound and modulus, and the cursor's sentinel. -/
def mtN : Nat := 312

/-- `MT_NALLOC` (R7): the number of allocated slots. -/
def mtNalloc : Nat := 340

/-- `MT_M` (R7): the twist's tap offset. -/
def mtM : Nat := 156

/-- `MT_F` (R7): the seeding multiplier. -/
def mtF : Nat := 6364136223846793005

/-- `MT_A` (R7): the twist's matrix coefficient. -/
def mtA : Word := 0xB5026F5AA96619E9

/-- `MT_UM` (R7): bits 63 to 31. -/
def mtUM : Word := 0xFFFFFFFF80000000

/-- `MT_LM` (R7): bits 30 to 0. -/
def mtLM : Word := 0x000000007FFFFFFF

/-- `TG_PHASE` EMPTY (R29). -/
def phaseEmpty : BitVec 2 := 0

/-- `TG_PHASE` LOADING (R29). -/
def phaseLoading : BitVec 2 := 1

/-- `TG_PHASE` READY (R29). -/
def phaseReady : BitVec 2 := 2

/-- `trunc_TG_W(v)` (R13, R72): `v mod 2^TG_W`. -/
def truncTG (cfg : Config) (v : Word) : Word := BitVec.ofNat 64 (v.toNat % 2 ^ cfg.tgW)

/-- `zext_64` of a `TG` word (R13): its `TG_W` bits, with zeros above (notes/assumptions/2.md). -/
def zextTG (cfg : Config) (v : Word) : Word := BitVec.ofNat 64 (v.toNat % 2 ^ cfg.tgW)

/-- Register 0, `PARAM` (R34). -/
def regParam (s : State) : Word :=
  0#9 ++ BitVec.ofNat 7 s.cfg.tgW ++ BitVec.ofNat 16 s.cfg.tgN ++ BitVec.ofNat 16 mtNalloc ++ BitVec.ofNat 16 mtN

/-- Register 1, `MT_STATUS` (R35). -/
def regMtStatus (s : State) : Word := 0#55 ++ s.mtCur

/-- Register 2, `TG_STATUS` (R36). -/
def regTgStatus (s : State) : Word := 0#30 ++ s.tgPhase ++ s.tgLdptr ++ s.tgCur

/-- Register 3, `TG_TAP` (R37). -/
def regTgTap (s : State) : Word := 0#48 ++ s.tgTap

/-- Register 4, `TG_TWIST` (R38): `TG_W` bits, reserved bits 0 above (R39). -/
def regTgTwist (s : State) : Word := zextTG s.cfg s.tgTwist

/-- The register named by `IDX` (R146); a number from 5 on is unassigned. -/
def readReg (s : State) (regno : Index) : Option Word :=
  match regno.toNat with
  | 0 => some (regParam s)
  | 1 => some (regMtStatus s)
  | 2 => some (regTgStatus s)
  | 3 => some (regTgTap s)
  | 4 => some (regTgTwist s)
  | _ => none

end Sys2Proof.Machine
end

