-- ==== Sys2Proof/Machine/Flags.lean ====
section
/-!
DEFINITION. The block has no condition flags; the status field of each response takes their place (10_state.md R31).
The status codes (60_exceptions.md R155) and the response word (30_encoding.md R66).
-/

namespace Sys2Proof.Machine

/-- The statuses of R155. Codes 5 to 7 are never produced: no value stands for them. -/
inductive Status where
  | ok
  | errUninit
  | errIllegal
  | errRange
  | errSeq
  deriving DecidableEq, Repr

/-- The 3-bit code of a status (R155). -/
def Status.code : Status → BitVec 3
  | .ok => 0
  | .errUninit => 1
  | .errIllegal => 2
  | .errRange => 3
  | .errSeq => 4

/-- The response word of R66: `RRSVD` 0 in bits 71:67, `STATUS` in 66:64, `DATA` in 63:0. -/
def packResponse (st : Status) (data : Word) : RspWord := 0#5 ++ st.code ++ data

end Sys2Proof.Machine
end

