-- ==== Sys2Proof/Machine/Ops.lean ====
section
/-!
DEFINITION. The shared operations: the array primitives (20_memory.md R59), the writes of each register, the response of
a command, and the report of an error (60_exceptions.md R160, R162), which is this block's one form of exception: nothing
is saved, nothing but the response is written, and so there is no return from it.
-/

namespace Sys2Proof.Machine

/-- The word in slot `i`, if a command has written it (R42). -/
def Memory.read? : Memory → Nat → Option Word
  | [], _ => none
  | (j, w) :: m, i => if i = j then some w else Memory.read? m i

/-- Slot `i` overwritten with `v`, every other slot as it was; keeps the canonical form. -/
def Memory.write : Memory → Nat → Word → Memory
  | [], i, v => [(i, v)]
  | (j, w) :: m, i, v =>
    if i < j then (i, v) :: (j, w) :: m
    else if i = j then (i, v) :: m
    else (j, w) :: Memory.write m i v

/-- The read of a slot in an array of `n` slots (R59): an index outside the range and a slot without a value fault. -/
def readSlot (n : Nat) (m : Memory) (i : Nat) : Except Fault Word :=
  if i < n then
    match m.read? i with
    | some w => .ok w
    | none => .error .unwrittenSlot
  else .error .indexOutOfRange

/-- The write of a slot in an array of `n` slots (R59): an index outside the range faults. -/
def writeSlot (n : Nat) (m : Memory) (i : Nat) (v : Word) : Except Fault Memory :=
  if i < n then .ok (m.write i v) else .error .indexOutOfRange

/-- `MemRead(MT, i, 64)` (R59). -/
def mtRead (m : Memory) (i : Nat) : Except Fault Word := readSlot mtNalloc m i

/-- `MemWrite(MT, i, 64, v)` (R59). -/
def mtWrite (m : Memory) (i : Nat) (v : Word) : Except Fault Memory := writeSlot mtNalloc m i v

/-- `MemRead(TG, i, TG_W)` (R59). -/
def tgRead (cfg : Config) (m : Memory) (i : Nat) : Except Fault Word := readSlot cfg.tgN m i

/-- `MemWrite(TG, i, TG_W, v)` (R59): the word is truncated to `TG_W` bits (R30). -/
def tgWrite (cfg : Config) (m : Memory) (i : Nat) (v : Word) : Except Fault Memory :=
  writeSlot cfg.tgN m i (truncTG cfg v)

/-- The MT state array replaced. -/
def State.withMtw (s : State) (m : Memory) : State := { s with mtw := m }

/-- `MT_CUR` written. -/
def State.withMtCur (s : State) (c : BitVec 9) : State := { s with mtCur := c }

/-- The TG state array replaced. -/
def State.withTgs (s : State) (m : Memory) : State := { s with tgs := m }

/-- `TG_CUR` written. -/
def State.withTgCur (s : State) (c : BitVec 16) : State := { s with tgCur := c }

/-- `TG_TAP` and `TG_TWIST` written. -/
def State.withTgParams (s : State) (tap : BitVec 16) (twist : Word) : State := { s with tgTap := tap, tgTwist := twist }

/-- `TG_LDPTR` and `TG_PHASE` written. -/
def State.withTgLoad (s : State) (ldptr : BitVec 16) (phase : BitVec 2) : State :=
  { s with tgLdptr := ldptr, tgPhase := phase }

/-- `respond(status, data)` (R14): the response word of the command. -/
def State.respond (s : State) (st : Status) (data : Word) : State := { s with rspBuf := packResponse st data }

/-- `raise <Status>` (R14, R160): a response with data 0 and no architectural state written. -/
def State.raise (s : State) (st : Status) : State := s.respond st 0

/-- The outcome of a command whose array accesses may fault. -/
def finish (r : Except Fault State) : Host.Outcome State Fault Refusal :=
  match r with
  | .ok s => .next s
  | .error f => .fault f

end Sys2Proof.Machine
end

