-- ==== Sys2Proof/Machine/Control.lean ====
section
/-!
DEFINITION. The control commands (42_control.md): `NOP` (R145) and `RDREG` (R146).
-/

namespace Sys2Proof.Machine

/-- `NOP` (R145): works in every state and changes none. -/
def execNop (s : State) : Host.Outcome State Fault Refusal := .next (s.respond .ok 0)

/-- `RDREG regno` (R146): works in every state; a number from 5 on is out of range (R158). -/
def execRdreg (regno : Index) (s : State) : Host.Outcome State Fault Refusal :=
  match readReg s regno with
  | some v => .next (s.respond .ok v)
  | none => .next (s.raise .errRange)

end Sys2Proof.Machine
end

