-- ==== Sys2Proof/Machine/Mt.lean ====
section
/-!
DEFINITION. The MT engine (40_mt19937_64.md): seeding (R90), twist (R91), temper (R93), and the commands `MT.SEED`
(R95), `MT.EXTRACT` (R96) and `MT.RDWORD` (R97).
-/

namespace Sys2Proof.Machine

/-- The word seeding writes to slot `i` after the word `prev` of slot `i - 1` (R90): the product and the sum are exact
before the truncation to 64 bits. -/
def seedNext (i : Nat) (prev : Word) : Word := BitVec.ofNat 64 (mtF * (prev ^^^ (prev >>> 62)).toNat + i)

/-- `n` consecutive seeded slots from slot `i` on, `w` the word of slot `i` (R90). -/
def seedSlots : Nat → Nat → Word → Memory
  | 0, _, _ => []
  | n + 1, i, w => (i, w) :: seedSlots n (i + 1) (seedNext (i + 1) w)

/-- `MT_SEED_FN(seed)` (R90): slots 0 to 339, all of them. -/
def mtSeedFn (seed : Word) : Memory := seedSlots mtNalloc 0 seed

/-- `x >> 1`, xored with `MT_A` when `x` is odd, for the `x` made of the upper bits of `wi` and the lower bits of `wj`
(R91). -/
def twistMix (wi wj : Word) : Word :=
  let x := (wi &&& mtUM) ||| (wj &&& mtLM)
  let xA := x >>> 1
  if x.toNat % 2 = 1 then xA ^^^ mtA else xA

/-- Step `i` of the twist (R91), on the array as the earlier steps left it. -/
def twistStep (m : Memory) (i : Nat) : Except Fault Memory := do
  let wi ← mtRead m i
  let wj ← mtRead m ((i + 1) % mtN)
  let wm ← mtRead m ((i + mtM) % mtN)
  mtWrite m i (wm ^^^ twistMix wi wj)

/-- `n` twist steps from step `i` on, in ascending order and in place (R15, R91). -/
def twistFrom : Nat → Nat → Memory → Except Fault Memory
  | 0, _, m => .ok m
  | n + 1, i, m => do
    let m' ← twistStep m i
    twistFrom n (i + 1) m'

/-- `MT_TWIST_FN()` (R91): steps 0 to 311. -/
def mtTwistFn (m : Memory) : Except Fault Memory := twistFrom mtN 0 m

/-- `MT_TEMPER_FN(y)` (R93), the four steps in order. -/
def mtTemperFn (y : Word) : Word :=
  let y := y ^^^ ((y >>> 29) &&& 0x5555555555555555#64)
  let y := y ^^^ ((y <<< 17) &&& 0x71D67FFFEDA60000#64)
  let y := y ^^^ ((y <<< 37) &&& 0xFFF7EEE000000000#64)
  y ^^^ (y >>> 43)

/-- `MT.EXTRACT`'s twist when the cursor is at the sentinel, with the cursor back at 0 (R96). -/
def mtRefill (s : State) : Except Fault State :=
  if s.mtCur.toNat = mtN then do
    let m ← mtTwistFn s.mtw
    .ok ((s.withMtw m).withMtCur 0)
  else .ok s

/-- `MT.SEED seed` (R95). -/
def execMtSeed (seed : Word) (s : State) : Host.Outcome State Fault Refusal :=
  .next (((s.withMtw (mtSeedFn seed)).withMtCur 312).respond .ok 0)

/-- `MT.EXTRACT` (R96): the cursor advances by one and does not wrap (90_conflicts.md C1). -/
def execMtExtract (s : State) : Host.Outcome State Fault Refusal :=
  if mtN < s.mtCur.toNat then .next (s.raise .errUninit)
  else finish (do
    let s1 ← mtRefill s
    let w ← mtRead s1.mtw s1.mtCur.toNat
    .ok ((s1.withMtCur (s1.mtCur + 1)).respond .ok (mtTemperFn w)))

/-- `MT.RDWORD idx` (R97): the range is checked before the seeded state (R161). -/
def execMtRdword (idx : Index) (s : State) : Host.Outcome State Fault Refusal :=
  if 339 < idx.toNat then .next (s.raise .errRange)
  else if mtN < s.mtCur.toNat then .next (s.raise .errUninit)
  else finish (do
    let w ← mtRead s.mtw idx.toNat
    .ok (s.respond .ok w))

end Sys2Proof.Machine
end

