-- ==== Sys2Proof/Machine/Tg.lean ====
section
/-!
DEFINITION. The TG engine (41_tgfsr.md): the advance (R120) and the commands `TG.BEGIN` (R121), `TG.PUSH` (R122),
`TG.OUTPUT` (R123), `TG.ADVANCE` (R124), `TG.NEXT` (R125) and `TG.RDWORD` (R126).
-/

namespace Sys2Proof.Machine

/-- The index of the word the advance combines with the current one (R120): exact sum, then the remainder. -/
def tgSrcIndex (s : State) : Nat := (s.tgCur.toNat + s.tgTap.toNat) % s.cfg.tgN

/-- The regenerated word (R120): `src xor (current >> 1)`, xored with the twist vector when `current` is odd. -/
def tgMix (twist current src : Word) : Word :=
  let v := src ^^^ (current >>> 1)
  if current.toNat % 2 = 1 then v ^^^ twist else v

/-- `TG_ADVANCE_FN()` (R120): both words are read before the write (R189), and the cursor wraps (R26). -/
def tgAdvanceFn (s : State) : Except Fault State := do
  let current ← tgRead s.cfg s.tgs s.tgCur.toNat
  let src ← tgRead s.cfg s.tgs (tgSrcIndex s)
  let m ← tgWrite s.cfg s.tgs s.tgCur.toNat (tgMix s.tgTwist current src)
  .ok ((s.withTgs m).withTgCur (BitVec.ofNat 16 ((s.tgCur.toNat + 1) % s.cfg.tgN)))

/-- `TG.BEGIN tap, twist` (R121): `TGS` is not written. -/
def execTgBegin (tap : Index) (twist : Word) (s : State) : Host.Outcome State Fault Refusal :=
  .next ((((s.withTgParams tap (truncTG s.cfg twist)).withTgCur 0).withTgLoad 0 phaseLoading).respond .ok 0)

/-- `TG.PUSH word` (R122). -/
def execTgPush (word : Word) (s : State) : Host.Outcome State Fault Refusal :=
  if s.tgPhase ≠ phaseLoading then .next (s.raise .errSeq)
  else finish (do
    let m ← tgWrite s.cfg s.tgs s.tgLdptr.toNat word
    let ldptr := s.tgLdptr.toNat + 1
    let phase := if ldptr = s.cfg.tgN then phaseReady else s.tgPhase
    .ok (((s.withTgs m).withTgLoad (BitVec.ofNat 16 ldptr) phase).respond .ok 0))

/-- `TG.OUTPUT` (R123). -/
def execTgOutput (s : State) : Host.Outcome State Fault Refusal :=
  if s.tgPhase ≠ phaseReady then .next (s.raise .errUninit)
  else finish (do
    let w ← tgRead s.cfg s.tgs s.tgCur.toNat
    .ok (s.respond .ok (zextTG s.cfg w)))

/-- `TG.ADVANCE` (R124). -/
def execTgAdvance (s : State) : Host.Outcome State Fault Refusal :=
  if s.tgPhase ≠ phaseReady then .next (s.raise .errUninit)
  else finish (do
    let s1 ← tgAdvanceFn s
    .ok (s1.respond .ok 0))

/-- `TG.NEXT` (R125): the word before it is regenerated. -/
def execTgNext (s : State) : Host.Outcome State Fault Refusal :=
  if s.tgPhase ≠ phaseReady then .next (s.raise .errUninit)
  else finish (do
    let v ← tgRead s.cfg s.tgs s.tgCur.toNat
    let s1 ← tgAdvanceFn s
    .ok (s1.respond .ok (zextTG s.cfg v)))

/-- `TG.RDWORD idx` (R126): the range is checked before the phase (R161). -/
def execTgRdword (idx : Index) (s : State) : Host.Outcome State Fault Refusal :=
  if s.cfg.tgN ≤ idx.toNat then .next (s.raise .errRange)
  else if s.tgPhase ≠ phaseReady then .next (s.raise .errUninit)
  else finish (do
    let w ← tgRead s.cfg s.tgs idx.toNat
    .ok (s.respond .ok (zextTG s.cfg w)))

end Sys2Proof.Machine
end

