-- ==== Sys2Proof/Machine/Dispatch.lean ====
section
/-!
DEFINITION. The meaning of a command, one arm per constructor of `Instr`.
-/

namespace Sys2Proof.Machine

def exec (i : Instr) (s : State) : Host.Outcome State Fault Refusal :=
  match i with
  | .nop => Sys2Proof.Machine.execNop s
  | .mtSeed seed => Sys2Proof.Machine.execMtSeed seed s
  | .mtExtract => Sys2Proof.Machine.execMtExtract s
  | .mtRdword idx => Sys2Proof.Machine.execMtRdword idx s
  | .tgBegin tap twist => Sys2Proof.Machine.execTgBegin tap twist s
  | .tgPush word => Sys2Proof.Machine.execTgPush word s
  | .tgOutput => Sys2Proof.Machine.execTgOutput s
  | .tgAdvance => Sys2Proof.Machine.execTgAdvance s
  | .tgNext => Sys2Proof.Machine.execTgNext s
  | .tgRdword idx => Sys2Proof.Machine.execTgRdword idx s
  | .rdreg regno => Sys2Proof.Machine.execRdreg regno s

end Sys2Proof.Machine
end

