-- ==== Sys2Proof/Machine/Port.lean ====
section
/-!
DEFINITION. The command port (30_encoding.md R67, R68): the handshake's conditions and the transitions of the interface,
reset (70_reset_and_hazards.md R180, R181) among them. A transition stands for as many clock cycles as it takes; the
model holds no time (R191; notes/assumptions/6.md).
-/

namespace Sys2Proof.Machine

/-- What the host drives at this step: the next entry of its script, or nothing after the last. -/
def State.portIn (s : State) : PortIn := s.inputs.headD PortIn.idle

/-- `cmd_ready = not rst and not IF_BUSY` (R67). -/
def cmdReady (p : PortIn) (s : State) : Bool := !p.rst && !s.ifBusy

/-- The output `rsp_valid`: 0 while `rst` is 1 (R180). -/
def rspValidOut (p : PortIn) (s : State) : Bool := !p.rst && s.rspValid

/-- The output `rsp_word`, of which the host sees something while `rsp_valid` is 1 only (R41). -/
def rspWordOut (p : PortIn) (s : State) : Option RspWord := if rspValidOut p s then some s.rspBuf else none

/-- The host's duty of R67 and R186 (a): a `cmd_word` offered while `cmd_ready` was 0 is still the one offered. -/
def hostSteady (p : PortIn) (s : State) : Bool :=
  match s.heldCmd with
  | none => true
  | some w => !p.cmdValid || p.cmdWord == w

/-- The offer that must stay as it is: one made while `cmd_ready` is 0 (R67). -/
def offerHeld (p : PortIn) (s : State) : Option CmdWord :=
  if p.cmdValid && !cmdReady p s then some p.cmdWord else none

/-- The entry of the host's script that this step uses is used up. -/
def State.useInput (s : State) : State := { s with inputs := s.inputs.tail, heldCmd := offerHeld s.portIn s }

/-- A reset edge (R180): every piece of the block's state takes its reset value, and an outstanding command is abandoned
with its response (R181). The instance's parameters and the host's side are not the block's state. -/
def State.resetEdge (s : State) : State :=
  { State.resetOf s.cfg with inputs := s.inputs, heldCmd := s.heldCmd, taken := s.taken }

/-- A command has been accepted: `IF_BUSY` becomes 1, and its response is not yet presented (R67). -/
def State.beginBusy (s : State) : State := { s with ifBusy := true, rspValid := false }

/-- The block raises `rsp_valid` (R67). -/
def State.present (s : State) : State := { s with rspValid := true }

/-- The host takes the response: `rsp_valid` falls and `IF_BUSY` becomes 0 (R67). -/
def State.takeResponse (s : State) : State :=
  { s with rspValid := false, ifBusy := false, taken := s.taken ++ [s.rspBuf] }

/-- `f` on the next state of an outcome. -/
def mapNext (f : State → State) (o : Host.Outcome State Fault Refusal) : Host.Outcome State Fault Refusal :=
  match o with
  | .next s => .next (f s)
  | .fault r => .fault r
  | .refused r => .refused r

/-- A command word is accepted and its command executed whole (R50, R68): its effect, or `ERR_ILLEGAL` with no state
changed for a word that does not decode (R77, R157). -/
def acceptCommand (w : CmdWord) (s : State) : Host.Outcome State Fault Refusal :=
  match decode w with
  | .ok i => mapNext State.beginBusy (exec i s)
  | .error _ => .next (s.raise .errIllegal).beginBusy

/-- The transition of the interface at one step (R67), on the state whose input entry is used up. -/
def portStep (p : PortIn) (s : State) : Host.Outcome State Fault Refusal :=
  if p.rst then .next s.resetEdge
  else if s.ifBusy then
    if s.rspValid then
      if p.rspReady then .next s.takeResponse else .next s
    else .next s.present
  else if p.cmdValid then acceptCommand p.cmdWord s
  else .next s

/-- One step: stuck where the host broke its duty (R67, R186) and no reset comes, else the interface's transition. -/
def hostStep (s : State) : Host.Outcome State Fault Refusal :=
  if hostSteady s.portIn s || s.portIn.rst then portStep s.portIn s.useInput
  else .fault .cmdWordChanged

/-- What the host drives to offer the command word `w`. -/
def PortIn.offer (w : CmdWord) : PortIn := { rst := false, cmdValid := true, cmdWord := w, rspReady := false }

/-- What the host drives to take a response. -/
def PortIn.ready : PortIn := { rst := false, cmdValid := false, cmdWord := 0, rspReady := true }

/-- The block idle and the host about to offer the command word `w`. -/
def State.offering (s : State) (w : CmdWord) : State :=
  { s with ifBusy := false, rspValid := false, heldCmd := none, inputs := PortIn.offer w :: s.inputs }

/-- The script of a host that sends these command words in order and takes every response: three steps a command, its
acceptance, its presentation and its hand-over. -/
def hostScript (ws : List CmdWord) : List PortIn :=
  ws.flatMap (fun w => [PortIn.offer w, PortIn.ready, PortIn.ready])

/-- The program `ws` placed at the port. -/
def State.withProgram (s : State) (ws : List CmdWord) : State := { s with inputs := hostScript ws }

end Sys2Proof.Machine
end

