-- ==== Sys2Proof/Machine/Step.lean ====
section
/-!
DEFINITION. One step of the machine, and how the host places the next command for it.
-/

namespace Sys2Proof.Machine

/-- One step of the block at its ports (R17, R67, R180). -/
def step (s : State) : Host.Outcome State Fault Refusal := hostStep s

/-- `s` with the command word of the low `nbits` bits of `w` offered by the host to an idle block, so that the next step
accepts and runs it (notes/assumptions/7.md). -/
def State.withFetchWord (s : State) (nbits w : Nat) : State := s.offering (BitVec.ofNat 96 (w % 2 ^ nbits))

end Sys2Proof.Machine
end

