-- ==== Sys2Proof/Machine/Asm.lean ====
section
/-!
DEFINITION. The assembler of 30_encoding.md R79 and R80: from text to statements, and from statements to the command
words a host sends. It is the host's notation and no part of the block; no command's meaning depends on it.
-/

namespace Sys2Proof.Machine

/-- The number of a register name (R80). -/
def regNumber : RegName → Index
  | .param => 0
  | .mtStatus => 1
  | .tgStatus => 2
  | .tgTap => 3
  | .tgTwist => 4

/-- The words of a line whose literals fit their fields (R79: `word = (OP << 80) or (idx << 64) or data`, `RSVD` 0; R80:
the expansions of the pseudo-instructions). -/
def lineWords : Line → List CmdWord
  | .nop => [encode .nop]
  | .mtSeed seed => [encode (.mtSeed (BitVec.ofNat 64 seed))]
  | .mtExtract => [encode .mtExtract]
  | .mtNext => [encode .mtExtract]
  | .mtRdword idx => [encode (.mtRdword (BitVec.ofNat 16 idx))]
  | .tgBegin tap twist => [encode (.tgBegin (BitVec.ofNat 16 tap) (BitVec.ofNat 64 twist))]
  | .tgPush word => [encode (.tgPush (BitVec.ofNat 64 word))]
  | .tgOutput => [encode .tgOutput]
  | .tgAdvance => [encode .tgAdvance]
  | .tgNext => [encode .tgNext]
  | .tgRdword idx => [encode (.tgRdword (BitVec.ofNat 16 idx))]
  | .rdreg regno => [encode (.rdreg (BitVec.ofNat 16 regno))]
  | .rdregName name => [encode (.rdreg (regNumber name))]
  | .tgLoad tap twist words =>
    encode (.tgBegin (BitVec.ofNat 16 tap) (BitVec.ofNat 64 twist)) ::
      words.map (fun w => encode (.tgPush (BitVec.ofNat 64 w)))
  | .rawWord w => [BitVec.ofNat 96 w]

/-- The words of one line; a line the assembler refuses gives none (R79, R80). -/
def assembleLine (cfg : Config) (l : Line) : Option (List CmdWord) :=
  if l.wellFormed cfg then some (lineWords l) else none

/-- The words of the statements, inside the open repetitions `open_` (innermost first, each with its count and the words
before it), after the words `acc` (R80: `.repeat k … .end` is k consecutive copies). -/
def assembleFrom (cfg : Config) : List AsmStmt → List (Nat × List CmdWord) → List CmdWord → Option (List CmdWord)
  | [], [], acc => some acc
  | [], _ :: _, _ => none
  | .line l :: ss, open_, acc =>
    match assembleLine cfg l with
    | some ws => assembleFrom cfg ss open_ (acc ++ ws)
    | none => none
  | .repeatBegin k :: ss, open_, acc => assembleFrom cfg ss ((k, acc) :: open_) []
  | .repeatEnd :: _, [], _ => none
  | .repeatEnd :: ss, (k, before) :: open_, acc =>
    assembleFrom cfg ss open_ (before ++ (List.replicate k acc).flatten)

/-- The command words of a program, for an instance with the parameters `cfg`. -/
def assemble (cfg : Config) (ss : List AsmStmt) : Option (List CmdWord) := assembleFrom cfg ss [] []

/-- White space around a token dropped. -/
def trimChars (cs : List Char) : List Char :=
  ((cs.dropWhile Char.isWhitespace).reverse.dropWhile Char.isWhitespace).reverse

/-- The value of a digit in the given base, if it is one. -/
def digitValue (base : Nat) (c : Char) : Option Nat :=
  let n := c.toNat
  let v := if 48 ≤ n ∧ n ≤ 57 then n - 48
    else if 97 ≤ n ∧ n ≤ 102 then n - 87
    else if 65 ≤ n ∧ n ≤ 70 then n - 55
    else base
  if v < base then some v else none

/-- The digits of a literal; underscores only group digits (R12, R79). `seen` says that a digit has come.
DESIGN CHOICE (notes/assumptions/12.md): R12 and R79 do not say where an underscore may stand; here one may lead, trail or be
doubled, and a literal without a digit is refused. -/
def digitsFrom (base : Nat) : List Char → Bool → Nat → Option Nat
  | [], seen, acc => if seen then some acc else none
  | '_' :: cs, seen, acc => digitsFrom base cs seen acc
  | c :: cs, _, acc =>
    match digitValue base c with
    | some v => digitsFrom base cs true (acc * base + v)
    | none => none

/-- A hexadecimal literal `0x…` (R79), the operand of `.word`. DESIGN CHOICE (notes/assumptions/12.md): any number of digits is
taken, for the value they have. -/
def hexLiteral (cs : List Char) : Option Nat :=
  match trimChars cs with
  | '0' :: 'x' :: ds => digitsFrom 16 ds false 0
  | _ => none

/-- An integer literal, hexadecimal or decimal (R79). -/
def literal (cs : List Char) : Option Nat :=
  match trimChars cs with
  | '0' :: 'x' :: ds => digitsFrom 16 ds false 0
  | ds => digitsFrom 10 ds false 0

/-- The pieces of `cs` between commas (R79). -/
def splitCommas : List Char → List (List Char)
  | [] => [[]]
  | c :: cs =>
    match splitCommas cs with
    | [] => [[c]]
    | p :: ps => if c = ',' then [] :: p :: ps else (c :: p) :: ps

/-- Every operand is an integer literal. -/
def literals : List (List Char) → Option (List Nat)
  | [] => some []
  | o :: os =>
    match literal o, literals os with
    | some n, some ns => some (n :: ns)
    | _, _ => none

/-- A register name of R80. -/
def regNameOf (cs : List Char) : Option RegName :=
  if cs = ['P', 'A', 'R', 'A', 'M'] then some .param
  else if cs = ['M', 'T', '_', 'S', 'T', 'A', 'T', 'U', 'S'] then some .mtStatus
  else if cs = ['T', 'G', '_', 'S', 'T', 'A', 'T', 'U', 'S'] then some .tgStatus
  else if cs = ['T', 'G', '_', 'T', 'A', 'P'] then some .tgTap
  else if cs = ['T', 'G', '_', 'T', 'W', 'I', 'S', 'T'] then some .tgTwist
  else none

/-- The statement of a mnemonic that takes integer literals only, or a directive of R80. -/
def stmtOf (mnemonic : String) (ns : List Nat) : Option AsmStmt :=
  match mnemonic, ns with
  | "NOP", [] => some (.line .nop)
  | "MT.SEED", [seed] => some (.line (.mtSeed seed))
  | "MT.EXTRACT", [] => some (.line .mtExtract)
  | "MT.NEXT", [] => some (.line .mtNext)
  | "MT.RDWORD", [idx] => some (.line (.mtRdword idx))
  | "TG.BEGIN", [tap, twist] => some (.line (.tgBegin tap twist))
  | "TG.PUSH", [word] => some (.line (.tgPush word))
  | "TG.OUTPUT", [] => some (.line .tgOutput)
  | "TG.ADVANCE", [] => some (.line .tgAdvance)
  | "TG.NEXT", [] => some (.line .tgNext)
  | "TG.RDWORD", [idx] => some (.line (.tgRdword idx))
  | "TG.LOAD", tap :: twist :: words => some (.line (.tgLoad tap twist words))
  | "RDREG", [regno] => some (.line (.rdreg regno))
  | ".REPEAT", [k] => some (.repeatBegin k)
  | ".END", [] => some .repeatEnd
  | _, _ => none

/-- The statement of one line of text with its comment: `some []` for a line without one, `none` for a line the
assembler refuses (R79). Mnemonics are case-insensitive. -/
def parseLine (text : List Char) : Option (List AsmStmt) :=
  let cs := trimChars (text.takeWhile (· ≠ ';'))
  let mnemonic := String.ofList ((cs.takeWhile (fun c => !c.isWhitespace)).map Char.toUpper)
  let rest := trimChars (cs.dropWhile (fun c => !c.isWhitespace))
  let operands := if rest = [] then [] else splitCommas rest
  if cs = [] then some []
  else if mnemonic = ".WORD" then
    match operands with
    | [o] => (hexLiteral o).map (fun w => [.line (.rawWord w)])
    | _ => none
  else
    match literals operands with
    | some ns => (stmtOf mnemonic ns).map (fun s => [s])
    | none =>
      match operands with
      | [o] => if mnemonic = "RDREG" then (regNameOf (trimChars o)).map (fun r => [.line (.rdregName r)]) else none
      | _ => none

/-- The statements of a program, one command per line (R79). -/
def parseLines : List (List Char) → Option (List AsmStmt)
  | [] => some []
  | l :: ls =>
    match parseLine l, parseLines ls with
    | some ss, some rest => some (ss ++ rest)
    | _, _ => none

/-- The command words of a program text, given as its lines. -/
def assembleText (cfg : Config) (lines : List String) : Option (List CmdWord) :=
  match parseLines (lines.map String.toList) with
  | some ss => assemble cfg ss
  | none => none

end Sys2Proof.Machine
end

