-- ==== Sys2Proof/Safety.lean ====
section
/-!
DEFINITION. What claims about the block are stated in: the invariant of the reachable states, what a legal response is,
which engine a command belongs to, and the responses of a sequence of commands (00_scope.md R17).
-/

namespace Sys2Proof

/-- The commands of the MT engine (R69). -/
def Instr.isMt : Instr → Bool
  | .mtSeed _ | .mtExtract | .mtRdword _ => true
  | .nop | .tgBegin _ _ | .tgPush _ | .tgOutput | .tgAdvance | .tgNext | .tgRdword _ | .rdreg _ => false

/-- The commands of the TG engine (R69). -/
def Instr.isTg : Instr → Bool
  | .tgBegin _ _ | .tgPush _ | .tgOutput | .tgAdvance | .tgNext | .tgRdword _ => true
  | .nop | .mtSeed _ | .mtExtract | .mtRdword _ | .rdreg _ => false

/-- The pure reads of R51 and `NOP`: they write no state (R32). -/
def Instr.isPure : Instr → Bool
  | .nop | .mtRdword _ | .tgOutput | .tgRdword _ | .rdreg _ => true
  | .mtSeed _ | .mtExtract | .tgBegin _ _ | .tgPush _ | .tgAdvance | .tgNext => false

end Sys2Proof

namespace Sys2Proof.Machine

/-- Every slot below `n` holds a value. -/
def Memory.full (n : Nat) (m : Memory) : Prop := ∀ i, i < n → ∃ w, m.read? i = some w

/-- No slot at or above `n` is listed. -/
def Memory.below (n : Nat) (m : Memory) : Prop := ∀ c ∈ m, c.1 < n

/-- Every word listed is below `2 ^ k`. -/
def Memory.narrow (k : Nat) (m : Memory) : Prop := ∀ c ∈ m, c.2.toNat < 2 ^ k

/-- `RRSVD`, bits 71:67 of a response word (R66). -/
def rspReserved (r : RspWord) : BitVec 5 := r.extractLsb' 67 5

/-- `STATUS`, bits 66:64 of a response word (R66). -/
def rspStatus (r : RspWord) : BitVec 3 := r.extractLsb' 64 3

/-- `DATA`, bits 63:0 of a response word (R66). -/
def rspData (r : RspWord) : Word := r.extractLsb' 0 64

/-- A response word the block may produce (R66, R155): `RRSVD` 0, a status 0 to 4, and `DATA` 0 with an error. -/
def rspLegal (r : RspWord) : Prop :=
  rspReserved r = 0 ∧ (rspStatus r).toNat ≤ 4 ∧ (rspStatus r ≠ 0 → rspData r = 0)

/-- The MT engine has been seeded (R22) and holds its words (R42). -/
def State.mtSeeded (s : State) : Prop := s.mtCur.toNat ≤ 312 ∧ s.mtw.full 340

/-- The TG engine has been constructed (R29), holds its words (R42) and has its cursor in range (R26). -/
def State.tgReady (s : State) : Prop := s.tgPhase = phaseReady ∧ s.tgs.full s.cfg.tgN ∧ s.tgCur.toNat < s.cfg.tgN

/-- The invariant of the block between steps. -/
structure State.Inv (s : State) : Prop where
  /-- The arrays are in their canonical form, within their index ranges (R45). -/
  mtw_wf : s.mtw.wf
  mtw_below : s.mtw.below 340
  tgs_wf : s.tgs.wf
  tgs_below : s.tgs.below s.cfg.tgN
  /-- `MT_CUR` is in {1, …, 312} or 511 (R23). -/
  mtCur_range : (1 ≤ s.mtCur.toNat ∧ s.mtCur.toNat ≤ 312) ∨ s.mtCur.toNat = 511
  /-- A seeded MT engine has all its slots (R42). -/
  mtw_full : s.mtCur.toNat ≤ 312 → s.mtw.full 340
  /-- `TG` words and the twist vector have `TG_W` bits (R30). -/
  tgs_narrow : s.tgs.narrow s.cfg.tgW
  tgTwist_narrow : s.tgTwist.toNat < 2 ^ s.cfg.tgW
  /-- `TG_CUR` is in [0, `TG_N`) (R26). -/
  tgCur_lt : s.tgCur.toNat < s.cfg.tgN
  /-- The load state (R29): phase 3 never, the pointer in [0, `TG_N`], below `TG_N` while LOADING, `TG_N` when READY. -/
  tgPhase_legal : s.tgPhase ≠ 3
  tgLdptr_le : s.tgLdptr.toNat ≤ s.cfg.tgN
  loading_lt : s.tgPhase = phaseLoading → s.tgLdptr.toNat < s.cfg.tgN
  ready_ptr : s.tgPhase = phaseReady → s.tgLdptr.toNat = s.cfg.tgN
  /-- The words pushed so far are there (R42). -/
  loading_full : s.tgPhase = phaseLoading → s.tgs.full s.tgLdptr.toNat
  ready_full : s.tgPhase = phaseReady → s.tgs.full s.cfg.tgN
  /-- A response is presented only for an outstanding command (R41, R67). -/
  rspValid_busy : s.rspValid = true → s.ifBusy = true
  /-- Every response word, of the outstanding command or taken, is one the block may produce (R66, R155). -/
  rspBuf_legal : s.ifBusy = true → rspLegal s.rspBuf
  taken_legal : ∀ r ∈ s.taken, rspLegal r

/-- The states agree on all that the MT engine holds. -/
def State.sameMt (s t : State) : Prop := s.mtw = t.mtw ∧ s.mtCur = t.mtCur

/-- The states agree on all that the TG engine holds, parameters of the instance included. -/
def State.sameTg (s t : State) : Prop :=
  s.cfg = t.cfg ∧ s.tgs = t.tgs ∧ s.tgCur = t.tgCur ∧ s.tgTap = t.tgTap ∧ s.tgTwist = t.tgTwist ∧
    s.tgPhase = t.tgPhase ∧ s.tgLdptr = t.tgLdptr

/-- The states agree on everything outside the two engines but the response word. -/
def State.samePort (s t : State) : Prop :=
  s.cfg = t.cfg ∧ s.ifBusy = t.ifBusy ∧ s.rspValid = t.rspValid ∧ s.inputs = t.inputs ∧ s.heldCmd = t.heldCmd ∧
    s.taken = t.taken

/-- The responses and the last state of a sequence of commands, each executed whole after the one before (R55). -/
def execTrace : List Instr → State → Host.Outcome (List RspWord × State) Fault Refusal
  | [], s => .next ([], s)
  | i :: is, s =>
    match exec i s with
    | .next s' =>
      match execTrace is s' with
      | .next (rs, t) => .next (s'.rspBuf :: rs, t)
      | .fault f => .fault f
      | .refused r => .refused r
    | .fault f => .fault f
    | .refused r => .refused r

/-- The response to one command word and the state after it, apart from the interface (R77, R157). -/
def execWord (w : CmdWord) (s : State) : Host.Outcome State Fault Refusal :=
  match decode w with
  | .ok i => exec i s
  | .error _ => .next (s.raise .errIllegal)

/-- The responses and the last state of a sequence of command words. -/
def wordTrace : List CmdWord → State → Host.Outcome (List RspWord × State) Fault Refusal
  | [], s => .next ([], s)
  | w :: ws, s =>
    match execWord w s with
    | .next s' =>
      match wordTrace ws s' with
      | .next (rs, t) => .next (s'.rspBuf :: rs, t)
      | .fault f => .fault f
      | .refused r => .refused r
    | .fault f => .fault f
    | .refused r => .refused r

/-- The state with the answer to a command word that does not decode: `ERR_ILLEGAL`, data 0, the response outstanding and
nothing else changed (R67, R157, R160). -/
def State.answeredIllegal (s : State) : State :=
  { s with rspBuf := packResponse .errIllegal 0, ifBusy := true, rspValid := false }

/-- The body of the twist's loop as a function of the three words it reads (R91): `x` from the upper 33 bits of `a` and
the lower 31 of `b`, shifted right, xored with `A` when odd, xored onto `c`. -/
def twistBody (a b c : Word) : Word :=
  let x := (a &&& 0xFFFFFFFF80000000#64) ||| (b &&& 0x7FFFFFFF#64)
  c ^^^ (if x.getLsbD 0 then (x >>> 1) ^^^ 0xB5026F5AA96619E9#64 else x >>> 1)

/-- `k` twists one after the other (R91). -/
def twistTimes : Nat → Memory → Except Fault Memory
  | 0, m => .ok m
  | k + 1, m => do
    let m' ← mtTwistFn m
    twistTimes k m'

end Sys2Proof.Machine
end

