-- ==== Sys2Proof/Certificates/Slice0/Obligations.lean ====
section
/-!
DEFINITION. The statements for the provers, from the numbered rules of spec/. A premise on a state is one of the parts of
`State.Inv`, which is stated here as an invariant of every step, or a condition of the rule itself.
-/

open Sys2Proof Sys2Proof.Machine

/-! ## Encoding -/

/-- R69, R70, R73, R74, R77, R157: the decoder, field by field and row by row, and the answer to a word that is ILLEGAL. -/
def Obligations.DecoderFollowsTheOpcodeTable : Prop :=
  ∀ w : CmdWord,
    let rsvd := w.extractLsb' 84 12
    let op := (w.extractLsb' 80 4).toNat
    let idx := w.extractLsb' 64 16
    let data := w.extractLsb' 0 64
    (rsvd ≠ 0 → ∃ e, decode w = .error e) ∧
    (0xB ≤ op → ∃ e, decode w = .error e) ∧
    (op ∈ [0x0, 0x1, 0x2, 0x5, 0x6, 0x7, 0x8] → idx ≠ 0 → ∃ e, decode w = .error e) ∧
    (op ∈ [0x0, 0x2, 0x3, 0x6, 0x7, 0x8, 0x9, 0xA] → data ≠ 0 → ∃ e, decode w = .error e) ∧
    (rsvd = 0 →
      (op = 0x0 → idx = 0 → data = 0 → decode w = .ok .nop) ∧
      (op = 0x1 → idx = 0 → decode w = .ok (.mtSeed data)) ∧
      (op = 0x2 → idx = 0 → data = 0 → decode w = .ok .mtExtract) ∧
      (op = 0x3 → data = 0 → decode w = .ok (.mtRdword idx)) ∧
      (op = 0x4 → decode w = .ok (.tgBegin idx data)) ∧
      (op = 0x5 → idx = 0 → decode w = .ok (.tgPush data)) ∧
      (op = 0x6 → idx = 0 → data = 0 → decode w = .ok .tgOutput) ∧
      (op = 0x7 → idx = 0 → data = 0 → decode w = .ok .tgAdvance) ∧
      (op = 0x8 → idx = 0 → data = 0 → decode w = .ok .tgNext) ∧
      (op = 0x9 → data = 0 → decode w = .ok (.tgRdword idx)) ∧
      (op = 0xA → data = 0 → decode w = .ok (.rdreg idx))) ∧
    (∀ e s, decode w = .error e → acceptCommand w s = .next s.answeredIllegal)

/-- R77 with R79: decoding the word of a command gives the command back, with every value of every operand. -/
def Obligations.DecodeOfEncodeIsTheCommand : Prop :=
  ∀ i : Instr, decode (encode i) = .ok i

/-- R77 with R79: a command has one word; the word that decodes to it is the one its encoding gives. -/
def Obligations.EncodeOfDecodeIsTheWord : Prop :=
  ∀ (w : CmdWord) (i : Instr), decode w = .ok i → encode i = w

/-- R70, R73, R74: the words that decode are those whose fields pass the check of a command word. -/
def Obligations.LegalWordsAreTheDecodableOnes : Prop :=
  ∀ w : CmdWord, (∃ i, decode w = .ok i) ↔ (fieldsOf w).wellFormed = true

/-- Words of 95_test_vectors.md section 2.1 and of its programs, one for each command, and three illegal ones. -/
def Obligations.SampleWordsDecode : Prop :=
  decode 0x000000000000000000000000#96 = .ok .nop ∧
  decode 0x0001000000000000088CB6B9#96 = .ok (.mtSeed 143439545) ∧
  decode 0x000200000000000000000000#96 = .ok .mtExtract ∧
  decode 0x000301540000000000000000#96 = .ok (.mtRdword 340) ∧
  decode 0x0004000B000000000000A875#96 = .ok (.tgBegin 11 0xA875) ∧
  decode 0x000500000000000000009E37#96 = .ok (.tgPush 0x9E37) ∧
  decode 0x000600000000000000000000#96 = .ok .tgOutput ∧
  decode 0x000700000000000000000000#96 = .ok .tgAdvance ∧
  decode 0x000800000000000000000000#96 = .ok .tgNext ∧
  decode 0x000900190000000000000000#96 = .ok (.tgRdword 25) ∧
  decode 0x000A00050000000000000000#96 = .ok (.rdreg 5) ∧
  decode 0x000B00000000000000000000#96 = .error .opReserved ∧
  decode 0x000200010000000000000000#96 = .error .idxNonzero ∧
  decode 0x001000000000000000000000#96 = .error .rsvdNonzero

/-- The encoder's formula of R79: `word = (OP << 80) or (idx << 64) or data`, with `RSVD` = 0, on the integers. -/
def Obligations.EncodedWordIsOpIdxData : Prop :=
  ∀ i : Instr,
    (encode i).toNat = (i.fields.op.toNat <<< 80 ||| i.fields.idx.toNat <<< 64 ||| i.fields.data.toNat) ∧
    (encode i).toNat < 2 ^ 84

/-- R66, R155: the response word's three fields, and the codes of the statuses. -/
def Obligations.ResponseWordLayout : Prop :=
  ∀ (st : Status) (d : Word),
    (packResponse st d).extractLsb' 67 5 = 0 ∧
    (packResponse st d).extractLsb' 64 3 = st.code ∧
    (packResponse st d).extractLsb' 0 64 = d ∧
    Status.ok.code = 0 ∧ Status.errUninit.code = 1 ∧ Status.errIllegal.code = 2 ∧ Status.errRange.code = 3 ∧
    Status.errSeq.code = 4

/-! ## Control commands -/

/-- R145: `NOP` does nothing but respond, in every state; a word of its opcode with any other bit set is illegal. -/
def Obligations.NopCommand : Prop :=
  ∀ s : State,
    exec .nop s = .next { s with rspBuf := packResponse .ok 0 } ∧
    decode 0 = .ok .nop ∧
    (∀ w : CmdWord, (fieldsOf w).op = 0x0 → w ≠ 0 → acceptCommand w s = .next s.answeredIllegal)

/-- R146: `RDREG` returns the register its number names, in every state, or `ERR_RANGE` from 5 on; what it returns right
after reset; and that `MT_STATUS` does not read 0 (with `MT_CUR` in the range of R23, a part of `State.Inv`). -/
def Obligations.RdregCommand : Prop :=
  ∀ s : State,
    exec (.rdreg 0) s = .next { s with rspBuf := packResponse .ok (regParam s) } ∧
    exec (.rdreg 1) s = .next { s with rspBuf := packResponse .ok (regMtStatus s) } ∧
    exec (.rdreg 2) s = .next { s with rspBuf := packResponse .ok (regTgStatus s) } ∧
    exec (.rdreg 3) s = .next { s with rspBuf := packResponse .ok (regTgTap s) } ∧
    exec (.rdreg 4) s = .next { s with rspBuf := packResponse .ok (regTgTwist s) } ∧
    (∀ n : Index, 5 ≤ n.toNat → exec (.rdreg n) s = .next { s with rspBuf := packResponse .errRange 0 }) ∧
    ((1 ≤ s.mtCur.toNat ∧ s.mtCur.toNat ≤ 312) ∨ s.mtCur.toNat = 511 → regMtStatus s ≠ 0) ∧
    (∀ cfg : Config, regMtStatus (State.resetOf cfg) = 0x1FF ∧ regTgStatus (State.resetOf cfg) = 0 ∧
      regTgTap (State.resetOf cfg) = 0 ∧ regTgTwist (State.resetOf cfg) = 0) ∧
    (∀ w : CmdWord, (fieldsOf w).op = 0xA →
      ((fieldsOf w).rsvd = 0 → (fieldsOf w).data = 0 → decode w = .ok (.rdreg (fieldsOf w).idx)) ∧
      ((fieldsOf w).rsvd ≠ 0 ∨ (fieldsOf w).data ≠ 0 → acceptCommand w s = .next s.answeredIllegal))

/-- R34 to R38: the fields of the five registers; reserved bits read as 0. -/
def Obligations.RegisterLayouts : Prop :=
  ∀ s : State,
    (((regParam s).extractLsb' 0 16).toNat = 312 ∧ ((regParam s).extractLsb' 16 16).toNat = 340 ∧
      ((regParam s).extractLsb' 32 16).toNat = s.cfg.tgN ∧ ((regParam s).extractLsb' 48 7).toNat = s.cfg.tgW ∧
      (regParam s).extractLsb' 55 9 = 0) ∧
    ((regMtStatus s).extractLsb' 0 9 = s.mtCur ∧ (regMtStatus s).extractLsb' 9 55 = 0) ∧
    ((regTgStatus s).extractLsb' 0 16 = s.tgCur ∧ (regTgStatus s).extractLsb' 16 16 = s.tgLdptr ∧
      (regTgStatus s).extractLsb' 32 2 = s.tgPhase ∧ (regTgStatus s).extractLsb' 34 30 = 0) ∧
    ((regTgTap s).extractLsb' 0 16 = s.tgTap ∧ (regTgTap s).extractLsb' 16 48 = 0) ∧
    (regTgTwist s).toNat = s.tgTwist.toNat % 2 ^ s.cfg.tgW

/-! ## MT engine -/

/-- R90, R95: `MT.SEED` writes all 340 slots by the recurrence, and nothing else but the cursor, in every state. -/
def Obligations.MtSeedCommand : Prop :=
  ∀ (seed : Word) (s : State),
    (∃ m : Memory,
      exec (.mtSeed seed) s = .next { s with mtw := m, mtCur := 312, rspBuf := packResponse .ok 0 } ∧
      m.read? 0 = some seed ∧
      (∀ i, 1 ≤ i → i ≤ 339 → ∃ p, m.read? (i - 1) = some p ∧
        m.read? i = some (BitVec.ofNat 64 (6364136223846793005 * (p ^^^ (p >>> 62)).toNat + i))) ∧
      (∀ i, 340 ≤ i → m.read? i = none)) ∧
    (∀ w : CmdWord, (fieldsOf w).op = 0x1 →
      ((fieldsOf w).rsvd = 0 → (fieldsOf w).idx = 0 → decode w = .ok (.mtSeed (fieldsOf w).data)) ∧
      ((fieldsOf w).rsvd ≠ 0 ∨ (fieldsOf w).idx ≠ 0 → acceptCommand w s = .next s.answeredIllegal))

/-- R93: the tempering function in its four steps, on integers with shifts that have no width limit (R13). -/
def Obligations.TemperSteps : Prop :=
  ∀ y : Word,
    let y1 := y.toNat ^^^ ((y.toNat >>> 29) &&& 0x5555555555555555)
    let y2 := y1 ^^^ ((y1 <<< 17) &&& 0x71D67FFFEDA60000)
    let y3 := y2 ^^^ ((y2 <<< 37) &&& 0xFFF7EEE000000000)
    (mtTemperFn y).toNat = (y3 ^^^ (y3 >>> 43)) % 2 ^ 64

/-- R91, R92: the in-place twist reads, at each step, the version of each slot that R92's table says, and touches no slot
from 312 on. -/
def Obligations.TwistReadsTheRightVersions : Prop :=
  ∀ (m : Memory) (old : Nat → Word), (∀ k, k < 312 → m.read? k = some (old k)) →
    ∃ (m' : Memory) (new : Nat → Word), mtTwistFn m = .ok m' ∧
      (∀ k, k < 312 → m'.read? k = some (new k)) ∧
      (∀ k, 312 ≤ k → m'.read? k = m.read? k) ∧
      (∀ i, i ≤ 155 → new i = twistBody (old i) (old (i + 1)) (old (i + 156))) ∧
      (∀ i, 156 ≤ i → i ≤ 310 → new i = twistBody (old i) (old (i + 1)) (new (i - 156))) ∧
      new 311 = twistBody (old 311) (new 0) (new 155)

/-- R96: `MT.EXTRACT` in its three cases, the twist going through when the recurrence slots hold their words; and an array
of zeros in slots 0 to 311 twists to zeros and gives 0. -/
def Obligations.MtExtractCommand : Prop :=
  ∀ s : State,
    (312 < s.mtCur.toNat → exec .mtExtract s = .next { s with rspBuf := packResponse .errUninit 0 }) ∧
    (∀ w, s.mtCur.toNat < 312 → s.mtw.read? s.mtCur.toNat = some w →
      ∃ c : BitVec 9, c.toNat = s.mtCur.toNat + 1 ∧
        exec .mtExtract s = .next { s with mtCur := c, rspBuf := packResponse .ok (mtTemperFn w) }) ∧
    (s.mtCur.toNat = 312 → s.mtw.full 312 →
      ∃ m w, mtTwistFn s.mtw = .ok m ∧ m.read? 0 = some w ∧
        exec .mtExtract s = .next { s with mtw := m, mtCur := 1, rspBuf := packResponse .ok (mtTemperFn w) }) ∧
    (s.mtCur.toNat = 312 → (∀ k, k < 312 → s.mtw.read? k = some 0) →
      ∃ t, exec .mtExtract s = .next t ∧ t.rspBuf = packResponse .ok 0 ∧ ∀ k, k < 312 → t.mtw.read? k = some 0) ∧
    (∀ w : CmdWord, (fieldsOf w).op = 0x2 →
      ((fieldsOf w).rsvd = 0 → (fieldsOf w).idx = 0 → (fieldsOf w).data = 0 → decode w = .ok .mtExtract) ∧
      ((fieldsOf w).rsvd ≠ 0 ∨ (fieldsOf w).idx ≠ 0 ∨ (fieldsOf w).data ≠ 0 →
        acceptCommand w s = .next s.answeredIllegal))

/-- R97: `MT.RDWORD` returns any of the 340 slots of a seeded engine and writes nothing; its errors in their order. -/
def Obligations.MtRdwordCommand : Prop :=
  ∀ (idx : Index) (s : State),
    (339 < idx.toNat → exec (.mtRdword idx) s = .next { s with rspBuf := packResponse .errRange 0 }) ∧
    (idx.toNat ≤ 339 → 312 < s.mtCur.toNat →
      exec (.mtRdword idx) s = .next { s with rspBuf := packResponse .errUninit 0 }) ∧
    (∀ w, idx.toNat ≤ 339 → s.mtCur.toNat ≤ 312 → s.mtw.read? idx.toNat = some w →
      exec (.mtRdword idx) s = .next { s with rspBuf := packResponse .ok w }) ∧
    (∀ w : CmdWord, (fieldsOf w).op = 0x3 →
      ((fieldsOf w).rsvd = 0 → (fieldsOf w).data = 0 → decode w = .ok (.mtRdword (fieldsOf w).idx)) ∧
      ((fieldsOf w).rsvd ≠ 0 ∨ (fieldsOf w).data ≠ 0 → acceptCommand w s = .next s.answeredIllegal))

/-- R98: after a seed and k extractions, with any commands of the other families between them, ⌈k/312⌉ twists have been
done and the cursor is ((k-1) mod 312) + 1; the last extraction returned the tempered word of slot (k-1) mod 312. -/
def Obligations.MtExtractSchedule : Prop :=
  ∀ (seed : Word) (s : State) (k : Nat), 1 ≤ k →
    (∃ m, twistTimes ((k + 311) / 312) (mtSeedFn seed) = .ok m ∧
      (∀ cs rs t, cs.filter Instr.isMt = List.replicate k Instr.mtExtract →
        execTrace (.mtSeed seed :: cs) s = .next (rs, t) →
          t.mtw = m ∧ t.mtCur.toNat = (k - 1) % 312 + 1 ∧
          (cs.getLast? = some .mtExtract →
            ∃ w, m.read? ((k - 1) % 312) = some w ∧ t.rspBuf = packResponse .ok (mtTemperFn w)))) ∧
    (∃ rs t, execTrace (.mtSeed seed :: List.replicate k .mtExtract) s = .next (rs, t))

/-- R101: the dead slots 312 to 339 influence no extraction, and only `MT.SEED` writes them. -/
def Obligations.DeadSlotsNeverInfluenceOutputs : Prop :=
  (∀ s s' t : State, s.mtCur = s'.mtCur → (∀ k, k < 312 → s.mtw.read? k = s'.mtw.read? k) →
    exec .mtExtract s = .next t →
    ∃ t', exec .mtExtract s' = .next t' ∧ t'.rspBuf = t.rspBuf ∧ t'.mtCur = t.mtCur ∧
      ∀ k, k < 312 → t.mtw.read? k = t'.mtw.read? k) ∧
  (∀ (i : Instr) (s t : State), (∀ seed, i ≠ .mtSeed seed) → exec i s = .next t →
    ∀ k, 312 ≤ k → t.mtw.read? k = s.mtw.read? k)

/-- R103: after `MT.SEED` the outputs of the MT commands are the same whatever the state before it was, also with
commands of the other families among them. -/
def Obligations.SeedRestartsTheSequence : Prop :=
  ∀ (seed : Word) (s s' : State) (cs : List Instr),
    (∀ rs t rs' t', execTrace (.mtSeed seed :: cs) s = .next (rs, t) →
      execTrace (.mtSeed seed :: cs) s' = .next (rs', t') →
      ((Instr.mtSeed seed :: cs).zip rs).filter (fun p => p.1.isMt) =
        ((Instr.mtSeed seed :: cs).zip rs').filter (fun p => p.1.isMt)) ∧
    ((∀ i ∈ cs, i.isMt = true) → ∃ rs t t', execTrace (.mtSeed seed :: cs) s = .next (rs, t) ∧
      execTrace (.mtSeed seed :: cs) s' = .next (rs, t'))

/-- R2: neither engine reads or writes the other's state: its commands change nothing there, and answer and leave the
same for every value of it. -/
def Obligations.EnginesAreIndependent : Prop :=
  ∀ (i : Instr) (s t : State), exec i s = .next t →
    (i.isMt = true → s.sameTg t ∧ s.samePort t ∧
      ∀ s' : State, s.sameMt s' → ∃ t', exec i s' = .next t' ∧ t.sameMt t' ∧ t.rspBuf = t'.rspBuf) ∧
    (i.isTg = true → s.sameMt t ∧ s.samePort t ∧
      ∀ s' : State, s.sameTg s' → ∃ t', exec i s' = .next t' ∧ t.sameTg t' ∧ t.rspBuf = t'.rspBuf)

/-! ## TG engine -/

/-- R121: `TG.BEGIN` in every state: the five registers it writes, and no array slot. -/
def Obligations.TgBeginCommand : Prop :=
  ∀ (tap : Index) (twist : Word) (s : State),
    exec (.tgBegin tap twist) s = .next { s with
      tgTap := tap, tgTwist := BitVec.ofNat 64 (twist.toNat % 2 ^ s.cfg.tgW), tgCur := 0, tgLdptr := 0, tgPhase := 1,
      rspBuf := packResponse .ok 0 } ∧
    (∀ w : CmdWord, (fieldsOf w).op = 0x4 →
      ((fieldsOf w).rsvd = 0 → decode w = .ok (.tgBegin (fieldsOf w).idx (fieldsOf w).data)) ∧
      ((fieldsOf w).rsvd ≠ 0 → acceptCommand w s = .next s.answeredIllegal))

/-- R122: `TG.PUSH` stores the truncated word at the load pointer, moves the pointer and, at the last word, ends the load;
`ERR_SEQ` outside LOADING. -/
def Obligations.TgPushCommand : Prop :=
  ∀ (word : Word) (s : State),
    (s.tgPhase ≠ 1 → exec (.tgPush word) s = .next { s with rspBuf := packResponse .errSeq 0 }) ∧
    (s.tgPhase = 1 → s.tgLdptr.toNat < s.cfg.tgN →
      ∃ (m : Memory) (p : BitVec 16), p.toNat = s.tgLdptr.toNat + 1 ∧
        m.read? s.tgLdptr.toNat = some (BitVec.ofNat 64 (word.toNat % 2 ^ s.cfg.tgW)) ∧
        (∀ k, k ≠ s.tgLdptr.toNat → m.read? k = s.tgs.read? k) ∧
        exec (.tgPush word) s = .next { s with
          tgs := m, tgLdptr := p, tgPhase := if p.toNat = s.cfg.tgN then 2 else 1, rspBuf := packResponse .ok 0 }) ∧
    (∀ w : CmdWord, (fieldsOf w).op = 0x5 →
      ((fieldsOf w).rsvd = 0 → (fieldsOf w).idx = 0 → decode w = .ok (.tgPush (fieldsOf w).data)) ∧
      ((fieldsOf w).rsvd ≠ 0 ∨ (fieldsOf w).idx ≠ 0 → acceptCommand w s = .next s.answeredIllegal))

/-- R123: `TG.OUTPUT` returns the current word and writes nothing; `ERR_UNINIT` unless READY. -/
def Obligations.TgOutputCommand : Prop :=
  ∀ s : State,
    (s.tgPhase ≠ 2 → exec .tgOutput s = .next { s with rspBuf := packResponse .errUninit 0 }) ∧
    (∀ w, s.tgPhase = 2 → s.tgCur.toNat < s.cfg.tgN → s.tgs.read? s.tgCur.toNat = some w →
      w.toNat < 2 ^ s.cfg.tgW → exec .tgOutput s = .next { s with rspBuf := packResponse .ok w }) ∧
    (∀ w : CmdWord, (fieldsOf w).op = 0x6 →
      ((fieldsOf w).rsvd = 0 → (fieldsOf w).idx = 0 → (fieldsOf w).data = 0 → decode w = .ok .tgOutput) ∧
      ((fieldsOf w).rsvd ≠ 0 ∨ (fieldsOf w).idx ≠ 0 ∨ (fieldsOf w).data ≠ 0 →
        acceptCommand w s = .next s.answeredIllegal))

/-- R120, R124: `TG.ADVANCE` replaces the current word by the recurrence of the two words read, and moves the cursor with
wrap; `ERR_UNINIT` unless READY. -/
def Obligations.TgAdvanceCommand : Prop :=
  ∀ s : State,
    (s.tgPhase ≠ 2 → exec .tgAdvance s = .next { s with rspBuf := packResponse .errUninit 0 }) ∧
    (∀ current src, s.tgPhase = 2 → s.tgCur.toNat < s.cfg.tgN → s.tgs.read? s.tgCur.toNat = some current →
      s.tgs.read? ((s.tgCur.toNat + s.tgTap.toNat) % s.cfg.tgN) = some src →
      ∃ (m : Memory) (v : Word) (c : BitVec 16),
        v = (if current.getLsbD 0 then src ^^^ (current >>> 1) ^^^ s.tgTwist else src ^^^ (current >>> 1)) ∧
        m.read? s.tgCur.toNat = some (BitVec.ofNat 64 (v.toNat % 2 ^ s.cfg.tgW)) ∧
        (∀ k, k ≠ s.tgCur.toNat → m.read? k = s.tgs.read? k) ∧
        c.toNat = (s.tgCur.toNat + 1) % s.cfg.tgN ∧
        exec .tgAdvance s = .next { s with tgs := m, tgCur := c, rspBuf := packResponse .ok 0 }) ∧
    (∀ w : CmdWord, (fieldsOf w).op = 0x7 →
      ((fieldsOf w).rsvd = 0 → (fieldsOf w).idx = 0 → (fieldsOf w).data = 0 → decode w = .ok .tgAdvance) ∧
      ((fieldsOf w).rsvd ≠ 0 ∨ (fieldsOf w).idx ≠ 0 ∨ (fieldsOf w).data ≠ 0 →
        acceptCommand w s = .next s.answeredIllegal))

/-- R125: `TG.NEXT` returns the current word as it was and regenerates it; `ERR_UNINIT` unless READY. -/
def Obligations.TgNextCommand : Prop :=
  ∀ s : State,
    (s.tgPhase ≠ 2 → exec .tgNext s = .next { s with rspBuf := packResponse .errUninit 0 }) ∧
    (∀ current src, s.tgPhase = 2 → s.tgCur.toNat < s.cfg.tgN → s.tgs.read? s.tgCur.toNat = some current →
      s.tgs.read? ((s.tgCur.toNat + s.tgTap.toNat) % s.cfg.tgN) = some src → current.toNat < 2 ^ s.cfg.tgW →
      ∃ (m : Memory) (v : Word) (c : BitVec 16),
        v = (if current.getLsbD 0 then src ^^^ (current >>> 1) ^^^ s.tgTwist else src ^^^ (current >>> 1)) ∧
        m.read? s.tgCur.toNat = some (BitVec.ofNat 64 (v.toNat % 2 ^ s.cfg.tgW)) ∧
        (∀ k, k ≠ s.tgCur.toNat → m.read? k = s.tgs.read? k) ∧
        c.toNat = (s.tgCur.toNat + 1) % s.cfg.tgN ∧
        exec .tgNext s = .next { s with tgs := m, tgCur := c, rspBuf := packResponse .ok current }) ∧
    (∀ w : CmdWord, (fieldsOf w).op = 0x8 →
      ((fieldsOf w).rsvd = 0 → (fieldsOf w).idx = 0 → (fieldsOf w).data = 0 → decode w = .ok .tgNext) ∧
      ((fieldsOf w).rsvd ≠ 0 ∨ (fieldsOf w).idx ≠ 0 ∨ (fieldsOf w).data ≠ 0 →
        acceptCommand w s = .next s.answeredIllegal))

/-- "It is exactly `TG.OUTPUT` followed by `TG.ADVANCE`" (R125): in every state, the state `TG.NEXT` leaves is the one the
pair leaves, with the response of the first. -/
def Obligations.TgNextIsOutputThenAdvance : Prop :=
  ∀ s t : State, exec .tgNext s = .next t ↔
    ∃ u v, exec .tgOutput s = .next u ∧ exec .tgAdvance u = .next v ∧ t = { v with rspBuf := u.rspBuf }

/-- R126: `TG.RDWORD` returns any word of a READY engine and writes nothing; its errors in their order. -/
def Obligations.TgRdwordCommand : Prop :=
  ∀ (idx : Index) (s : State),
    (s.cfg.tgN ≤ idx.toNat → exec (.tgRdword idx) s = .next { s with rspBuf := packResponse .errRange 0 }) ∧
    (idx.toNat < s.cfg.tgN → s.tgPhase ≠ 2 →
      exec (.tgRdword idx) s = .next { s with rspBuf := packResponse .errUninit 0 }) ∧
    (∀ w, idx.toNat < s.cfg.tgN → s.tgPhase = 2 → s.tgs.read? idx.toNat = some w → w.toNat < 2 ^ s.cfg.tgW →
      exec (.tgRdword idx) s = .next { s with rspBuf := packResponse .ok w }) ∧
    (∀ w : CmdWord, (fieldsOf w).op = 0x9 →
      ((fieldsOf w).rsvd = 0 → (fieldsOf w).data = 0 → decode w = .ok (.tgRdword (fieldsOf w).idx)) ∧
      ((fieldsOf w).rsvd ≠ 0 ∨ (fieldsOf w).data ≠ 0 → acceptCommand w s = .next s.answeredIllegal))

/-- R44: construction replaces an engine's state completely. A seed leaves the same MT state from every state; `TG.BEGIN`
and `TG_N` pushes go through from every state and leave a READY engine that holds the pushed words, and the same TG state
from all states whose arrays are canonical and in range (two parts of `State.Inv`). -/
def Obligations.ConstructionReplacesTheEngine : Prop :=
  (∀ (seed : Word) (s s' : State), ∃ t t', exec (.mtSeed seed) s = .next t ∧ exec (.mtSeed seed) s' = .next t' ∧
    t.sameMt t' ∧ t.mtSeeded) ∧
  (∀ (tap : Index) (twist : Word) (ws : List Word) (s : State), ws.length = s.cfg.tgN →
    ∃ rs t, execTrace (.tgBegin tap twist :: ws.map Instr.tgPush) s = .next (rs, t) ∧ t.tgReady ∧
      t.tgCur = 0 ∧ t.tgTap = tap ∧ t.tgTwist = BitVec.ofNat 64 (twist.toNat % 2 ^ s.cfg.tgW) ∧
      (∀ k w, ws[k]? = some w → t.tgs.read? k = some (BitVec.ofNat 64 (w.toNat % 2 ^ s.cfg.tgW))) ∧
      (∀ s' : State, s'.cfg = s.cfg → s.tgs.wf → s'.tgs.wf → s.tgs.below s.cfg.tgN → s'.tgs.below s.cfg.tgN →
        ∃ t', execTrace (.tgBegin tap twist :: ws.map Instr.tgPush) s' = .next (rs, t') ∧ t.sameTg t'))

/-- R128: after a construction the first `TG_N` results of `TG.NEXT` are the words pushed, in order (truncated to `TG_W`
bits), and the next is the regenerated word of slot 0. -/
def Obligations.LoadedWordsComeOutFirst : Prop :=
  ∀ (tap : Index) (twist : Word) (ws : List Word) (s : State), ws.length = s.cfg.tgN →
    ∃ t : State,
      execTrace (.tgBegin tap twist :: ws.map Instr.tgPush ++ List.replicate s.cfg.tgN .tgNext) s =
        .next (List.replicate (s.cfg.tgN + 1) (packResponse .ok 0) ++
          ws.map (fun w => packResponse .ok (truncTG s.cfg w)), t) ∧
      ∃ w0 wk u, ws[0]? = some w0 ∧ ws[tap.toNat % s.cfg.tgN]? = some wk ∧ exec .tgNext t = .next u ∧
        u.rspBuf = packResponse .ok (truncTG s.cfg
          (tgMix (truncTG s.cfg twist) (truncTG s.cfg w0) (truncTG s.cfg wk)))

/-- R127: two `TG.OUTPUT` with no TG command between them but `TG.OUTPUT` and `TG.RDWORD` (`RDREG` and the commands of the
other families may stand there) return the same; `TG.ADVANCE` then `TG.OUTPUT` depends on the TG state before only. -/
def Obligations.OutputsRepeatUntilAnAdvance : Prop :=
  (∀ (s s1 s2 s3 : State) (cs : List Instr) (rs : List RspWord),
    (∀ i ∈ cs, i.isTg = true → i = .tgOutput ∨ ∃ idx, i = .tgRdword idx) →
    exec .tgOutput s = .next s1 → execTrace cs s1 = .next (rs, s2) → exec .tgOutput s2 = .next s3 →
    s3.rspBuf = s1.rspBuf) ∧
  (∀ (s s' t : State) (rs : List RspWord), s.sameTg s' →
    execTrace [.tgAdvance, .tgOutput] s = .next (rs, t) →
    ∃ t', execTrace [.tgAdvance, .tgOutput] s' = .next (rs, t'))

/-- R129: every TG output lies in [0, 2^`TG_W` - 1], in every state. -/
def Obligations.TgOutputsAreInRange : Prop :=
  ∀ (i : Instr) (s t : State), (i = .tgOutput ∨ i = .tgNext ∨ ∃ idx, i = .tgRdword idx) → exec i s = .next t →
    (rspData t.rspBuf).toNat < 2 ^ s.cfg.tgW

/-- R130: when `TG_TAP mod TG_N` = 0 the new word is `current xor (current >> 1)`, xored with the twist vector if `current`
is odd; with `TG_N` = 1 that holds for every tap. -/
def Obligations.TapZeroCombinesTheWordWithItself : Prop :=
  ∀ (s : State) (current : Word), s.tgPhase = 2 → s.tgCur.toNat < s.cfg.tgN →
    s.tgs.read? s.tgCur.toNat = some current → (s.tgTap.toNat % s.cfg.tgN = 0 ∨ s.cfg.tgN = 1) →
    ∃ t, exec .tgAdvance s = .next t ∧
      t.tgs.read? s.tgCur.toNat = some (truncTG s.cfg
        (if current.getLsbD 0 then current ^^^ (current >>> 1) ^^^ s.tgTwist else current ^^^ (current >>> 1)))

/-- R131: an all-zero `TGS` stays all-zero under every advance, and every output is 0, for every sequence of outputs and
advances. -/
def Obligations.ZeroTgStateStaysZero : Prop :=
  ∀ (s : State) (cs : List Instr), s.tgPhase = 2 → s.tgCur.toNat < s.cfg.tgN →
    (∀ j, j < s.cfg.tgN → s.tgs.read? j = some 0) →
    (∀ i ∈ cs, i = .tgOutput ∨ i = .tgAdvance ∨ i = .tgNext) →
    ∃ t, execTrace cs s = .next (List.replicate cs.length (packResponse .ok 0), t) ∧
      ∀ j, j < s.cfg.tgN → t.tgs.read? j = some 0

/-- R27: only `TG.BEGIN` writes the tap, and a tap acts as its residue modulo `TG_N`: for every TG command but `TG.BEGIN`,
another tap with the same residue gives the same answer and the same state but for the tap. -/
def Obligations.TapActsModuloTheLength : Prop :=
  ∀ (i : Instr) (s t : State), (∀ tap twist, i ≠ .tgBegin tap twist) → exec i s = .next t →
    t.tgTap = s.tgTap ∧
    (i.isTg = true → ∀ tap' : BitVec 16, tap'.toNat % s.cfg.tgN = s.tgTap.toNat % s.cfg.tgN →
      exec i { s with tgTap := tap' } = .next { t with tgTap := tap' })

/-! ## Errors -/

/-- The first two points of R160: a command that ends in any error writes no state but its response, whose data is 0.
The stored `rsp_valid` of the second clause is the model's choice (log entry 5). -/
def Obligations.ErrorsWriteNothing : Prop :=
  (∀ (i : Instr) (s t : State), exec i s = .next t → rspStatus t.rspBuf ≠ 0 →
    t = { s with rspBuf := t.rspBuf } ∧ rspData t.rspBuf = 0) ∧
  (∀ (w : CmdWord) (s t : State), acceptCommand w s = .next t → rspStatus t.rspBuf ≠ 0 →
    t = { s with rspBuf := t.rspBuf, ifBusy := true, rspValid := false } ∧ rspData t.rspBuf = 0)

/-- R78: the response's data is 0 for every command that returns no value, and for every command that ends in an error. -/
def Obligations.NoValueMeansDataZero : Prop :=
  (∀ (i : Instr) (s t : State), exec i s = .next t →
    (i = .nop ∨ (∃ seed, i = .mtSeed seed) ∨ (∃ tap twist, i = .tgBegin tap twist) ∨ (∃ word, i = .tgPush word) ∨
      i = .tgAdvance ∨ rspStatus t.rspBuf ≠ 0) → rspData t.rspBuf = 0) ∧
  (∀ (w : CmdWord) (e : Illegal) (s : State), decode w = .error e →
    ∃ t, acceptCommand w s = .next t ∧ rspStatus t.rspBuf = 2 ∧ rspData t.rspBuf = 0)

/-- R156, R158, R159: which commands raise which error, and exactly when. -/
def Obligations.ErrorCauses : Prop :=
  ∀ (i : Instr) (s t : State), exec i s = .next t →
    (rspStatus t.rspBuf = 1 ↔
      ((i = .mtExtract ∨ ∃ idx : Index, idx.toNat ≤ 339 ∧ i = .mtRdword idx) ∧ 312 < s.mtCur.toNat) ∨
      ((i = .tgOutput ∨ i = .tgAdvance ∨ i = .tgNext ∨ ∃ idx : Index, idx.toNat < s.cfg.tgN ∧ i = .tgRdword idx) ∧
        s.tgPhase ≠ 2)) ∧
    (rspStatus t.rspBuf = 3 ↔
      (∃ idx : Index, 339 < idx.toNat ∧ i = .mtRdword idx) ∨
      (∃ idx : Index, s.cfg.tgN ≤ idx.toNat ∧ i = .tgRdword idx) ∨
      (∃ n : Index, 5 ≤ n.toNat ∧ i = .rdreg n)) ∧
    (rspStatus t.rspBuf = 4 ↔ (∃ word, i = .tgPush word) ∧ s.tgPhase ≠ 1) ∧
    rspStatus t.rspBuf ≠ 2 ∧ (rspStatus t.rspBuf).toNat ≤ 4

/-- R161: of several errors the response reports ILLEGAL first, then RANGE, then UNINIT or SEQ; no command raises both UNINIT
and SEQ. -/
def Obligations.ErrorPriority : Prop :=
  ∀ (w : CmdWord) (s : State),
    ((fieldsOf w).wellFormed = false → acceptCommand w s = .next s.answeredIllegal) ∧
    (∀ idx : Index, decode w = .ok (.mtRdword idx) → 339 < idx.toNat →
      acceptCommand w s = .next { s with rspBuf := packResponse .errRange 0, ifBusy := true, rspValid := false }) ∧
    (∀ idx : Index, decode w = .ok (.tgRdword idx) → s.cfg.tgN ≤ idx.toNat →
      acceptCommand w s = .next { s with rspBuf := packResponse .errRange 0, ifBusy := true, rspValid := false }) ∧
    (∀ (i : Instr) (t : State), exec i s = .next t →
      (rspStatus t.rspBuf = 1 → ∀ word, i ≠ .tgPush word) ∧ (rspStatus t.rspBuf = 4 → ∃ word, i = .tgPush word))

/-! ## Invariants -/

/-- The post-reset state of every instance meets the invariant, whose own conventions are those of log entries 2, 3, 5 and
9. -/
def Obligations.ResetMeetsTheInvariant : Prop :=
  ∀ cfg : Config, (State.resetOf cfg).Inv

/-- Every step from a state that meets the invariant leads to one that does; the invariant's own conventions are those of log
entries 2, 3, 5 and 9. -/
def Obligations.EveryStepKeepsTheInvariant : Prop :=
  ∀ s t : State, s.Inv → step s = .next t → t.Inv

/-- R42: "The guards of the instruction rules ensure that no rule reads one": from a state that meets the invariant, a step
stops only where the host changed the command word it was waiting with. That a reset edge goes through whatever word stands
on the port, and that a withdrawn offer ends the wait, is the model's choice (log entry 8). -/
def Obligations.SteadyHostNeverStopsTheBlock : Prop :=
  ∀ s : State, s.Inv → (hostSteady s.portIn s = true ∨ s.portIn.rst = true) → ∃ t, step s = .next t

/-- Every command completes in every state that meets the invariant, and keeps it; the invariant's own conventions are those
of log entries 2, 3, 5 and 9. -/
def Obligations.EveryCommandCompletes : Prop :=
  ∀ (i : Instr) (s : State), s.Inv → ∃ t, exec i s = .next t ∧ t.Inv

/-- R23: after any command completes, `MT_CUR` is in {1, …, 312} or 511, so `RDREG` 1 never returns 0. -/
def Obligations.MtCursorAfterAnyCommand : Prop :=
  ∀ (i : Instr) (s t : State), (1 ≤ s.mtCur.toNat ∧ s.mtCur.toNat ≤ 312) ∨ s.mtCur.toNat = 511 →
    exec i s = .next t →
    ((1 ≤ t.mtCur.toNat ∧ t.mtCur.toNat ≤ 312) ∨ t.mtCur.toNat = 511) ∧
    (i = .rdreg 1 → rspData t.rspBuf ≠ 0)

/-- R29: the load state's invariants are kept by every command: phase 3 is never written, `TG_LDPTR` stays in [0, `TG_N`], it
is `TG_N` when READY and below `TG_N` while LOADING. -/
def Obligations.TgLoadStateStaysLegal : Prop :=
  ∀ (i : Instr) (s t : State),
    let legal : State → Prop := fun u => u.tgPhase ≠ 3 ∧ u.tgLdptr.toNat ≤ u.cfg.tgN ∧
      (u.tgPhase = 2 → u.tgLdptr.toNat = u.cfg.tgN) ∧ (u.tgPhase = 1 → u.tgLdptr.toNat < u.cfg.tgN)
    legal s → exec i s = .next t → legal t

/-- R30: after every command each `TGS[i]` and `TG_TWIST` are below 2^`TG_W` (an `MTW[i]` has 64 bits by its type). -/
def Obligations.TgWidthsStayInRange : Prop :=
  ∀ (i : Instr) (s t : State), s.tgs.narrow s.cfg.tgW → s.tgTwist.toNat < 2 ^ s.cfg.tgW → exec i s = .next t →
    t.tgs.narrow t.cfg.tgW ∧ t.tgTwist.toNat < 2 ^ t.cfg.tgW ∧
    (∀ k w, t.tgs.read? k = some w → w.toNat < 2 ^ t.cfg.tgW) ∧ ∀ k w, t.mtw.read? k = some w → w.toNat < 2 ^ 64

/-- The synthesis parameters of R9 are fixed for an instance: no step changes them. That they stand in State is the model's
choice (log entry 1). -/
def Obligations.ParametersNeverChange : Prop :=
  ∀ s t : State, step s = .next t → t.cfg = s.cfg

/-! ## Reset and the port -/

/-- R33: the reset value of every piece of state that has one; no slot of either array holds a value. That `State.reset` is
the instance with the defaults of R9 is the model's choice (log entry 1), and so is the stored `rsp_valid` (log entry 5). -/
def Obligations.ResetValues : Prop :=
  ∀ cfg : Config,
    (∀ k, (State.resetOf cfg).mtw.read? k = none) ∧ (State.resetOf cfg).mtCur = 511 ∧
    (∀ k, (State.resetOf cfg).tgs.read? k = none) ∧ (State.resetOf cfg).tgCur = 0 ∧
    (State.resetOf cfg).tgTap = 0 ∧ (State.resetOf cfg).tgTwist = 0 ∧ (State.resetOf cfg).tgPhase = 0 ∧
    (State.resetOf cfg).tgLdptr = 0 ∧ (State.resetOf cfg).ifBusy = false ∧ (State.resetOf cfg).rspValid = false ∧
    State.reset = State.resetOf Config.default ∧ Config.default.tgN = 25 ∧ Config.default.tgW = 16

/-- R180, R181: at an edge with `rst` the state takes its reset values whatever was outstanding, no response is handed
over, the ports read 0, and the next edge without `rst` is one at which a command can be accepted. After it no response is
presented unless a command is offered, and no slot of an array can be read. The clauses on `inputs` and `taken` are about the
model's own fields (log entries 7 and 9). -/
def Obligations.ResetEdge : Prop :=
  ∀ s : State, s.portIn.rst = true →
    cmdReady s.portIn s = false ∧ rspValidOut s.portIn s = false ∧
    ∃ t, step s = .next t ∧ t.cfg = s.cfg ∧ (∀ k, t.mtw.read? k = none) ∧ t.mtCur = 511 ∧
      (∀ k, t.tgs.read? k = none) ∧ t.tgCur = 0 ∧ t.tgTap = 0 ∧ t.tgTwist = 0 ∧ t.tgPhase = 0 ∧ t.tgLdptr = 0 ∧
      t.ifBusy = false ∧ t.rspValid = false ∧ t.taken = s.taken ∧ t.inputs = s.inputs.tail ∧
      (∀ p : PortIn, p.rst = false → cmdReady p t = true) ∧
      (∀ u, t.portIn.cmdValid = false → step t = .next u →
        u.ifBusy = false ∧ u.rspValid = false ∧ u.taken = s.taken) ∧
      (∀ i : Instr, (i = .mtExtract ∨ (∃ idx : Index, idx.toNat ≤ 339 ∧ i = .mtRdword idx) ∨ i = .tgOutput ∨
          i = .tgAdvance ∨ i = .tgNext ∨ ∃ idx : Index, idx.toNat < s.cfg.tgN ∧ i = .tgRdword idx) →
        exec i t = .next { t with rspBuf := packResponse .errUninit 0 })

/-- A step on an idle block with a command offered runs the decoded command on that state, with its input used up, and
marks it outstanding; and `withFetchWord` places a command for the very next step. What one step is, and the host's script,
are the model's choices (log entries 6 and 7). -/
def Obligations.StepRunsTheDecodedCommand : Prop :=
  ∀ (s : State) (w : CmdWord) (i : Instr), decode w = .ok i →
    (s.portIn.rst = false → s.portIn.cmdValid = true → s.portIn.cmdWord = w → s.ifBusy = false →
      hostSteady s.portIn s = true → step s = mapNext State.beginBusy (exec i s.useInput)) ∧
    step (s.withFetchWord 96 w.toNat) =
      mapNext State.beginBusy (exec i { s with ifBusy := false, rspValid := false, heldCmd := none })

/-- R67, R68: one command makes one response: accepted, presented, taken; then the block is idle with the command's state
changes, and the response it made is the one the host took. Three untimed steps a command, the host's script and the record of
what it took are the model's choices (log entries 6, 7 and 9). -/
def Obligations.OneResponsePerCommand : Prop :=
  ∀ (s u : State) (w : CmdWord) (p1 p2 p3 : PortIn) (rest : List PortIn),
    s.inputs = p1 :: p2 :: p3 :: rest → s.ifBusy = false → s.heldCmd = none →
    p1.rst = false → p1.cmdValid = true → p1.cmdWord = w →
    p2.rst = false → p2.cmdValid = false →
    p3.rst = false → p3.cmdValid = false → p3.rspReady = true →
    execWord w s = .next u →
    Host.Core.run Sys2Proof.core 3 s = .next { u with
      inputs := rest, heldCmd := none, ifBusy := false, rspValid := false, taken := s.taken ++ [u.rspBuf] }

/-- R17, R55: the block at its ports refines the commands one after the other: a host that sends `ws` and takes every
response gets exactly the responses of the command sequence, and the last state is the sequence's. The host's script, its three
steps a word and the record of what it took are the model's choices (log entries 6, 7 and 9). -/
def Obligations.ScriptedHostGetsTheCommandResponses : Prop :=
  ∀ (ws : List CmdWord) (s t : State) (rs : List RspWord),
    s.ifBusy = false → s.rspValid = false → s.heldCmd = none →
    wordTrace ws s = .next (rs, t) →
    rs.length = ws.length ∧
    Host.Core.run Sys2Proof.core (3 * ws.length) (s.withProgram ws) =
      .next { t with inputs := [], taken := s.taken ++ rs }

/-- R186: a host that never takes the response hangs the block: it goes on holding `IF_BUSY` and the same response, and
accepts nothing, however long the host waits and whatever command it keeps offering. A hang as a step that changes nothing is the
model's choice (log entry 10). -/
def Obligations.UntakenResponseHangsTheBlock : Prop :=
  ∀ (s : State) (w : CmdWord) (ps rest : List PortIn),
    s.ifBusy = true → s.rspValid = true → (s.heldCmd = none ∨ s.heldCmd = some w) →
    s.inputs = ps ++ rest →
    (∀ p ∈ ps, p.rst = false ∧ p.rspReady = false ∧ (p.cmdValid = true → p.cmdWord = w)) →
    ∃ h, Host.Core.run Sys2Proof.core ps.length s = .next { s with inputs := rest, heldCmd := h }

/-- R67, R186: the run is stuck where the host changes the command word it offered while `cmd_ready` was 0, as log
entry 8 says; a reset edge and a withdrawn offer, which the premises leave out, are the model's choice there. -/
def Obligations.ChangedCommandWordIsStuck : Prop :=
  ∀ (s : State) (w : CmdWord), s.heldCmd = some w → s.portIn.rst = false → s.portIn.cmdValid = true →
    s.portIn.cmdWord ≠ w → step s = .fault .cmdWordChanged

/-! ## Frames and the arrays -/

/-- R40, the pure reads of R51, and `NOP` (R145), as R32 lists them: nothing changes but the response. -/
def Obligations.PureReadsFrame : Prop :=
  ∀ (i : Instr) (s t : State), i.isPure = true → exec i s = .next t → t = { s with rspBuf := t.rspBuf }

/-- The frame of `MT.SEED` and `MT.EXTRACT`: everything but the MT array, its cursor and the response is unchanged; an
extraction that does not twist stores nothing, and one that twists stores to slots 0 to 311 only; a seed stores to slots 0
to 339 only (with the array in range, a part of `State.Inv`). -/
def Obligations.MtCommandsFrame : Prop :=
  ∀ s t : State,
    (exec .mtExtract s = .next t →
      t = { s with mtw := t.mtw, mtCur := t.mtCur, rspBuf := t.rspBuf } ∧
      (s.mtCur.toNat ≠ 312 → t.mtw = s.mtw) ∧
      ∀ a, 312 ≤ a → t.mtw.read? a = s.mtw.read? a) ∧
    (∀ seed, exec (.mtSeed seed) s = .next t →
      t = { s with mtw := t.mtw, mtCur := t.mtCur, rspBuf := t.rspBuf } ∧
      (s.mtw.below 340 → ∀ a, 340 ≤ a → t.mtw.read? a = s.mtw.read? a))

/-- The frame of the TG commands that write: the registers each may write (R32), and the one slot each stores to, which is
`TG_LDPTR` for `TG.PUSH` while LOADING and `TG_CUR` for `TG.ADVANCE` and `TG.NEXT` while READY; `TG.BEGIN` stores to none. -/
def Obligations.TgCommandsFrame : Prop :=
  ∀ s t : State,
    (∀ tap twist, exec (.tgBegin tap twist) s = .next t →
      t = { s with tgTap := t.tgTap, tgTwist := t.tgTwist, tgCur := t.tgCur, tgLdptr := t.tgLdptr,
                   tgPhase := t.tgPhase, rspBuf := t.rspBuf }) ∧
    (∀ word, exec (.tgPush word) s = .next t →
      t = { s with tgs := t.tgs, tgLdptr := t.tgLdptr, tgPhase := t.tgPhase, rspBuf := t.rspBuf } ∧
      ∀ a, (a ≠ s.tgLdptr.toNat ∨ s.tgPhase ≠ 1) → t.tgs.read? a = s.tgs.read? a) ∧
    (∀ i, (i = .tgAdvance ∨ i = .tgNext) → exec i s = .next t →
      t = { s with tgs := t.tgs, tgCur := t.tgCur, rspBuf := t.rspBuf } ∧
      ∀ a, (a ≠ s.tgCur.toNat ∨ s.tgPhase ≠ 2) → t.tgs.read? a = s.tgs.read? a)

/-- R59: the array primitives: a word written is read back (a TG word truncated to `TG_W` bits), every other slot is as it
was, a write keeps the canonical form, and an index outside the range faults. The list with its canonical form, and the form of the
fault, are the model's (log entry 3), and so is a TG word in 64 bits (log entry 2). -/
def Obligations.ArrayPrimitives : Prop :=
  ∀ (m : Memory) (i : Nat) (v : Word) (cfg : Config),
    (i < 340 → ∃ m', mtWrite m i v = .ok m' ∧ mtRead m' i = .ok v ∧ (m.wf → m'.wf) ∧
      ∀ k, k ≠ i → mtRead m' k = mtRead m k) ∧
    (i < cfg.tgN → ∃ m', tgWrite cfg m i v = .ok m' ∧
      tgRead cfg m' i = .ok (BitVec.ofNat 64 (v.toNat % 2 ^ cfg.tgW)) ∧ (m.wf → m'.wf) ∧
      ∀ k, k ≠ i → tgRead cfg m' k = tgRead cfg m k) ∧
    (340 ≤ i → mtRead m i = .error .indexOutOfRange ∧ mtWrite m i v = .error .indexOutOfRange) ∧
    (cfg.tgN ≤ i → tgRead cfg m i = .error .indexOutOfRange ∧ tgWrite cfg m i v = .error .indexOutOfRange)

/-! ## Assembler -/

/-- R80: `.repeat k` … `.end` stands for k consecutive copies of the enclosed lines. -/
def Obligations.AssemblerRepeatCopiesTheLines : Prop :=
  ∀ (cfg : Config) (k : Nat) (ls : List Line) (ws : List CmdWord),
    assemble cfg (ls.map AsmStmt.line) = some ws →
    assemble cfg (AsmStmt.repeatBegin k :: ls.map AsmStmt.line ++ [AsmStmt.repeatEnd]) =
      some (List.replicate k ws).flatten

/-- R80: `TG.LOAD` with exactly `TG_N` words whose literals fit is `TG.BEGIN` and one `TG.PUSH` a word, in order; with
another number of words it is refused. -/
def Obligations.AssemblerExpandsTheLoad : Prop :=
  ∀ (cfg : Config) (tap twist : Nat) (words : List Nat), tap ≤ 65535 → twist < 2 ^ 64 → (∀ w ∈ words, w < 2 ^ 64) →
    (words.length = cfg.tgN → ∃ ws, assemble cfg [.line (.tgLoad tap twist words)] = some ws ∧
      ws.map decode = (Instr.tgBegin (BitVec.ofNat 16 tap) (BitVec.ofNat 64 twist) ::
        words.map (fun w => Instr.tgPush (BitVec.ofNat 64 w))).map Except.ok) ∧
    (words.length ≠ cfg.tgN → assemble cfg [.line (.tgLoad tap twist words)] = none)
end

