-- ==== Sys2Proof/Laws/Bits.lean ====
section
/-!
SUPPORT. Fields of a concatenation, and that the fields of a command word and the word made of them determine each other
(30_encoding.md R65).
-/

namespace Sys2Proof

theorem extract_low {a b : Nat} (x : BitVec a) (y : BitVec b) : (x ++ y).extractLsb' 0 b = y := by
  apply BitVec.eq_of_getLsbD_eq
  intro i hi
  simp [BitVec.getLsbD_append, hi]

theorem extract_high {a b : Nat} (x : BitVec a) (y : BitVec b) : (x ++ y).extractLsb' b a = x := by
  apply BitVec.eq_of_getLsbD_eq
  intro i hi
  simp [BitVec.getLsbD_append, hi]

/-- A field above the low part is a field of the high part. -/
theorem extract_skip {a b : Nat} (x : BitVec a) (y : BitVec b) (k n : Nat) :
    (x ++ y).extractLsb' (b + k) n = x.extractLsb' k n := by
  apply BitVec.eq_of_getLsbD_eq
  intro i hi
  simp [BitVec.getLsbD_append, hi, Nat.add_assoc]

theorem packFields_fieldsOf (w : CmdWord) : packFields (fieldsOf w) = w := by
  apply BitVec.eq_of_getLsbD_eq
  intro i hi
  simp only [packFields, fieldsOf, BitVec.getLsbD_append, BitVec.getLsbD_extractLsb']
  split
  · simp [*]
  · split
    · simp only [*, decide_true, Bool.true_and, show 64 + (i - 64) = i by omega]
    · split
      · simp only [*, decide_true, Bool.true_and, show 80 + (i - 64 - 16) = i by omega]
      · have : i - 64 - 16 - 4 < 12 := by omega
        simp only [this, decide_true, Bool.true_and, show 84 + (i - 64 - 16 - 4) = i by omega]

@[simp] theorem fieldsOf_packFields (f : Fields) : fieldsOf (packFields f) = f := by
  have h0 : (packFields f).extractLsb' 84 12 = f.rsvd :=
    (extract_skip (f.rsvd ++ f.op ++ f.idx) f.data 20 12).trans
      ((extract_skip (f.rsvd ++ f.op) f.idx 4 12).trans (extract_high f.rsvd f.op))
  have h1 : (packFields f).extractLsb' 80 4 = f.op :=
    (extract_skip (f.rsvd ++ f.op ++ f.idx) f.data 16 4).trans
      ((extract_skip (f.rsvd ++ f.op) f.idx 0 4).trans (extract_low f.rsvd f.op))
  have h2 : (packFields f).extractLsb' 64 16 = f.idx :=
    (extract_skip (f.rsvd ++ f.op ++ f.idx) f.data 0 16).trans (extract_low (f.rsvd ++ f.op) f.idx)
  have h3 : (packFields f).extractLsb' 0 64 = f.data := extract_low (f.rsvd ++ f.op ++ f.idx) f.data
  simp only [fieldsOf, h0, h1, h2, h3]

end Sys2Proof
end

