-- ==== Sys2Proof/Laws/Memory.lean ====
section
/-!
SUPPORT. The laws of the state arrays as data: a read after a write, the canonical form under a write, and that the
canonical form determines an array by its reads.
-/

namespace Sys2Proof.Machine

@[simp] theorem Memory.read?_nil (i : Nat) : Memory.read? [] i = none := rfl

theorem Memory.read?_cons (j : Nat) (w : Word) (m : Memory) (i : Nat) :
    Memory.read? ((j, w) :: m) i = if i = j then some w else Memory.read? m i := rfl

theorem Memory.read?_write (m : Memory) (i : Nat) (v : Word) (k : Nat) :
    (m.write i v).read? k = if k = i then some v else m.read? k := by
  induction m with
  | nil => simp [Memory.write, Memory.read?]
  | cons c m ih =>
    obtain ⟨j, w⟩ := c
    unfold Memory.write
    split
    · simp only [Memory.read?_cons]
    · split
      · subst i
        simp only [Memory.read?_cons]
        split <;> rfl
      · simp only [Memory.read?_cons, ih]
        split
        · rw [if_neg (by omega)]
        · rfl

@[simp] theorem Memory.read?_write_same (m : Memory) (i : Nat) (v : Word) : (m.write i v).read? i = some v := by
  simp [Memory.read?_write]

theorem Memory.read?_write_ne (m : Memory) {i k : Nat} (v : Word) (h : k ≠ i) :
    (m.write i v).read? k = m.read? k := by
  simp [Memory.read?_write, h]

theorem Memory.mem_write {m : Memory} {i : Nat} {v : Word} {c : Cell} (h : c ∈ m.write i v) :
    c = (i, v) ∨ c ∈ m := by
  induction m with
  | nil => exact .inl (by simpa [Memory.write] using h)
  | cons d m ih =>
    obtain ⟨j, w⟩ := d
    unfold Memory.write at h
    split at h
    · simpa using h
    · split at h
      · rcases List.mem_cons.1 h with rfl | h
        · exact .inl rfl
        · exact .inr (List.mem_cons_of_mem _ h)
      · rcases List.mem_cons.1 h with rfl | h
        · exact .inr List.mem_cons_self
        · exact (ih h).imp id (List.mem_cons_of_mem _)

theorem Memory.wf_cons {j : Nat} {w : Word} {m : Memory} :
    Memory.wf ((j, w) :: m) ↔ (∀ c ∈ m, j < c.1) ∧ m.wf := List.pairwise_cons

/-- A write keeps the canonical form. -/
theorem Memory.wf_write {m : Memory} (h : m.wf) (i : Nat) (v : Word) : (m.write i v).wf := by
  induction m with
  | nil => simp [Memory.write]
  | cons d m ih =>
    obtain ⟨j, w⟩ := d
    have ⟨hj, hm⟩ := Memory.wf_cons.1 h
    unfold Memory.write
    split
    · refine Memory.wf_cons.2 ⟨?_, h⟩
      intro c hc
      rcases List.mem_cons.1 hc with rfl | hc
      · assumption
      · have := hj c hc
        omega
    · split
      · subst i
        exact Memory.wf_cons.2 ⟨hj, hm⟩
      · refine Memory.wf_cons.2 ⟨?_, ih hm⟩
        intro c hc
        rcases Memory.mem_write hc with rfl | hc
        · show j < i
          omega
        · exact hj c hc

theorem Memory.below_write {n : Nat} {m : Memory} (h : m.below n) {i : Nat} (hi : i < n) (v : Word) :
    (m.write i v).below n := by
  intro c hc
  rcases Memory.mem_write hc with rfl | hc
  · exact hi
  · exact h c hc

theorem Memory.narrow_write {k : Nat} {m : Memory} (h : m.narrow k) (i : Nat) {v : Word} (hv : v.toNat < 2 ^ k) :
    (m.write i v).narrow k := by
  intro c hc
  rcases Memory.mem_write hc with rfl | hc
  · exact hv
  · exact h c hc

theorem Memory.full_write {n : Nat} {m : Memory} (h : m.full n) (i : Nat) (v : Word) : (m.write i v).full n := by
  intro k hk
  rw [Memory.read?_write]
  split
  · exact ⟨v, rfl⟩
  · exact h k hk

/-- A write at the first slot without a value adds one slot to the full ones. -/
theorem Memory.full_write_succ {n : Nat} {m : Memory} (h : m.full n) (v : Word) : (m.write n v).full (n + 1) := by
  intro k hk
  rw [Memory.read?_write]
  split
  · exact ⟨v, rfl⟩
  · exact h k (by omega)

theorem Memory.full_mono {n k : Nat} {m : Memory} (h : m.full n) (hk : k ≤ n) : m.full k :=
  fun i hi => h i (by omega)

theorem Memory.mem_of_read? {m : Memory} {i : Nat} {w : Word} (h : m.read? i = some w) : (i, w) ∈ m := by
  induction m with
  | nil => simp at h
  | cons d m ih =>
    obtain ⟨j, v⟩ := d
    rw [Memory.read?_cons] at h
    split at h
    · subst i
      cases h
      exact List.mem_cons_self
    · exact List.mem_cons_of_mem _ (ih h)

theorem Memory.read?_eq_none {m : Memory} {i : Nat} (h : ∀ c ∈ m, c.1 ≠ i) : m.read? i = none := by
  cases hr : m.read? i with
  | none => rfl
  | some w => exact absurd rfl (h _ (Memory.mem_of_read? hr))

theorem Memory.read?_below {n : Nat} {m : Memory} (h : m.below n) {i : Nat} (hi : n ≤ i) : m.read? i = none :=
  Memory.read?_eq_none (fun c hc => by have := h c hc; omega)

theorem Memory.read?_of_mem {m : Memory} (h : m.wf) {i : Nat} {w : Word} (hm : (i, w) ∈ m) : m.read? i = some w := by
  induction m with
  | nil => simp at hm
  | cons d m ih =>
    obtain ⟨j, v⟩ := d
    have ⟨hj, hw⟩ := Memory.wf_cons.1 h
    rw [Memory.read?_cons]
    rcases List.mem_cons.1 hm with heq | hm
    · cases heq
      rw [if_pos rfl]
    · have := hj _ hm
      simp only at this
      rw [if_neg (by omega)]
      exact ih hw hm

/-- The head of a canonical array is what the least index reads as. -/
theorem Memory.read?_lt_head {j : Nat} {w : Word} {m : Memory} (h : Memory.wf ((j, w) :: m)) {i : Nat} (hi : i < j) :
    Memory.read? ((j, w) :: m) i = none := by
  refine Memory.read?_eq_none ?_
  intro c hc
  rcases List.mem_cons.1 hc with rfl | hc
  · show j ≠ i
    omega
  · have := (Memory.wf_cons.1 h).1 c hc
    omega

/-- Canonical arrays that read alike are equal. -/
theorem Memory.eq_of_read? {m m' : Memory} (h : m.wf) (h' : m'.wf) (hr : ∀ i, m.read? i = m'.read? i) : m = m' := by
  induction m generalizing m' with
  | nil =>
    cases m' with
    | nil => rfl
    | cons d m' =>
      have := hr d.1
      rw [Memory.read?_cons] at this
      simp at this
  | cons d m ih =>
    obtain ⟨j, w⟩ := d
    cases m' with
    | nil =>
      have := hr j
      rw [Memory.read?_cons] at this
      simp at this
    | cons d' m' =>
      obtain ⟨j', w'⟩ := d'
      have hjj : j = j' := by
        rcases Nat.lt_trichotomy j j' with hlt | heq | hlt
        · have := hr j
          rw [Memory.read?_lt_head h' hlt, Memory.read?_cons, if_pos rfl] at this
          simp at this
        · exact heq
        · have := hr j'
          rw [Memory.read?_lt_head h hlt, Memory.read?_cons, if_pos rfl] at this
          simp at this
      subst hjj
      have hw : w = w' := by
        have := hr j
        rw [Memory.read?_cons, Memory.read?_cons, if_pos rfl, if_pos rfl] at this
        exact Option.some.inj this
      subst hw
      congr 1
      refine ih (Memory.wf_cons.1 h).2 (Memory.wf_cons.1 h').2 ?_
      intro i
      have hi := hr i
      rw [Memory.read?_cons, Memory.read?_cons] at hi
      by_cases hij : i = j
      · subst hij
        rw [Memory.read?_eq_none, Memory.read?_eq_none]
        · intro c hc
          have := (Memory.wf_cons.1 h').1 c hc
          omega
        · intro c hc
          have := (Memory.wf_cons.1 h).1 c hc
          omega
      · rwa [if_neg hij, if_neg hij] at hi

end Sys2Proof.Machine
end

