-- ==== Sys2Proof/Laws/State.lean ====
section
/-!
SUPPORT. Every field of the state under every update of it, so that no proof unfolds a record update.
-/

namespace Sys2Proof.Machine

variable (s : State)

@[simp] theorem State.withMtw_cfg (m : Memory) : (s.withMtw m).cfg = s.cfg := rfl
@[simp] theorem State.withMtw_mtw (m : Memory) : (s.withMtw m).mtw = m := rfl
@[simp] theorem State.withMtw_mtCur (m : Memory) : (s.withMtw m).mtCur = s.mtCur := rfl
@[simp] theorem State.withMtw_tgs (m : Memory) : (s.withMtw m).tgs = s.tgs := rfl
@[simp] theorem State.withMtw_tgCur (m : Memory) : (s.withMtw m).tgCur = s.tgCur := rfl
@[simp] theorem State.withMtw_tgTap (m : Memory) : (s.withMtw m).tgTap = s.tgTap := rfl
@[simp] theorem State.withMtw_tgTwist (m : Memory) : (s.withMtw m).tgTwist = s.tgTwist := rfl
@[simp] theorem State.withMtw_tgPhase (m : Memory) : (s.withMtw m).tgPhase = s.tgPhase := rfl
@[simp] theorem State.withMtw_tgLdptr (m : Memory) : (s.withMtw m).tgLdptr = s.tgLdptr := rfl
@[simp] theorem State.withMtw_ifBusy (m : Memory) : (s.withMtw m).ifBusy = s.ifBusy := rfl
@[simp] theorem State.withMtw_rspValid (m : Memory) : (s.withMtw m).rspValid = s.rspValid := rfl
@[simp] theorem State.withMtw_rspBuf (m : Memory) : (s.withMtw m).rspBuf = s.rspBuf := rfl
@[simp] theorem State.withMtw_inputs (m : Memory) : (s.withMtw m).inputs = s.inputs := rfl
@[simp] theorem State.withMtw_heldCmd (m : Memory) : (s.withMtw m).heldCmd = s.heldCmd := rfl
@[simp] theorem State.withMtw_taken (m : Memory) : (s.withMtw m).taken = s.taken := rfl

@[simp] theorem State.withMtCur_cfg (c : BitVec 9) : (s.withMtCur c).cfg = s.cfg := rfl
@[simp] theorem State.withMtCur_mtw (c : BitVec 9) : (s.withMtCur c).mtw = s.mtw := rfl
@[simp] theorem State.withMtCur_mtCur (c : BitVec 9) : (s.withMtCur c).mtCur = c := rfl
@[simp] theorem State.withMtCur_tgs (c : BitVec 9) : (s.withMtCur c).tgs = s.tgs := rfl
@[simp] theorem State.withMtCur_tgCur (c : BitVec 9) : (s.withMtCur c).tgCur = s.tgCur := rfl
@[simp] theorem State.withMtCur_tgTap (c : BitVec 9) : (s.withMtCur c).tgTap = s.tgTap := rfl
@[simp] theorem State.withMtCur_tgTwist (c : BitVec 9) : (s.withMtCur c).tgTwist = s.tgTwist := rfl
@[simp] theorem State.withMtCur_tgPhase (c : BitVec 9) : (s.withMtCur c).tgPhase = s.tgPhase := rfl
@[simp] theorem State.withMtCur_tgLdptr (c : BitVec 9) : (s.withMtCur c).tgLdptr = s.tgLdptr := rfl
@[simp] theorem State.withMtCur_ifBusy (c : BitVec 9) : (s.withMtCur c).ifBusy = s.ifBusy := rfl
@[simp] theorem State.withMtCur_rspValid (c : BitVec 9) : (s.withMtCur c).rspValid = s.rspValid := rfl
@[simp] theorem State.withMtCur_rspBuf (c : BitVec 9) : (s.withMtCur c).rspBuf = s.rspBuf := rfl
@[simp] theorem State.withMtCur_inputs (c : BitVec 9) : (s.withMtCur c).inputs = s.inputs := rfl
@[simp] theorem State.withMtCur_heldCmd (c : BitVec 9) : (s.withMtCur c).heldCmd = s.heldCmd := rfl
@[simp] theorem State.withMtCur_taken (c : BitVec 9) : (s.withMtCur c).taken = s.taken := rfl

@[simp] theorem State.withTgs_cfg (m : Memory) : (s.withTgs m).cfg = s.cfg := rfl
@[simp] theorem State.withTgs_mtw (m : Memory) : (s.withTgs m).mtw = s.mtw := rfl
@[simp] theorem State.withTgs_mtCur (m : Memory) : (s.withTgs m).mtCur = s.mtCur := rfl
@[simp] theorem State.withTgs_tgs (m : Memory) : (s.withTgs m).tgs = m := rfl
@[simp] theorem State.withTgs_tgCur (m : Memory) : (s.withTgs m).tgCur = s.tgCur := rfl
@[simp] theorem State.withTgs_tgTap (m : Memory) : (s.withTgs m).tgTap = s.tgTap := rfl
@[simp] theorem State.withTgs_tgTwist (m : Memory) : (s.withTgs m).tgTwist = s.tgTwist := rfl
@[simp] theorem State.withTgs_tgPhase (m : Memory) : (s.withTgs m).tgPhase = s.tgPhase := rfl
@[simp] theorem State.withTgs_tgLdptr (m : Memory) : (s.withTgs m).tgLdptr = s.tgLdptr := rfl
@[simp] theorem State.withTgs_ifBusy (m : Memory) : (s.withTgs m).ifBusy = s.ifBusy := rfl
@[simp] theorem State.withTgs_rspValid (m : Memory) : (s.withTgs m).rspValid = s.rspValid := rfl
@[simp] theorem State.withTgs_rspBuf (m : Memory) : (s.withTgs m).rspBuf = s.rspBuf := rfl
@[simp] theorem State.withTgs_inputs (m : Memory) : (s.withTgs m).inputs = s.inputs := rfl
@[simp] theorem State.withTgs_heldCmd (m : Memory) : (s.withTgs m).heldCmd = s.heldCmd := rfl
@[simp] theorem State.withTgs_taken (m : Memory) : (s.withTgs m).taken = s.taken := rfl

@[simp] theorem State.withTgCur_cfg (c : BitVec 16) : (s.withTgCur c).cfg = s.cfg := rfl
@[simp] theorem State.withTgCur_mtw (c : BitVec 16) : (s.withTgCur c).mtw = s.mtw := rfl
@[simp] theorem State.withTgCur_mtCur (c : BitVec 16) : (s.withTgCur c).mtCur = s.mtCur := rfl
@[simp] theorem State.withTgCur_tgs (c : BitVec 16) : (s.withTgCur c).tgs = s.tgs := rfl
@[simp] theorem State.withTgCur_tgCur (c : BitVec 16) : (s.withTgCur c).tgCur = c := rfl
@[simp] theorem State.withTgCur_tgTap (c : BitVec 16) : (s.withTgCur c).tgTap = s.tgTap := rfl
@[simp] theorem State.withTgCur_tgTwist (c : BitVec 16) : (s.withTgCur c).tgTwist = s.tgTwist := rfl
@[simp] theorem State.withTgCur_tgPhase (c : BitVec 16) : (s.withTgCur c).tgPhase = s.tgPhase := rfl
@[simp] theorem State.withTgCur_tgLdptr (c : BitVec 16) : (s.withTgCur c).tgLdptr = s.tgLdptr := rfl
@[simp] theorem State.withTgCur_ifBusy (c : BitVec 16) : (s.withTgCur c).ifBusy = s.ifBusy := rfl
@[simp] theorem State.withTgCur_rspValid (c : BitVec 16) : (s.withTgCur c).rspValid = s.rspValid := rfl
@[simp] theorem State.withTgCur_rspBuf (c : BitVec 16) : (s.withTgCur c).rspBuf = s.rspBuf := rfl
@[simp] theorem State.withTgCur_inputs (c : BitVec 16) : (s.withTgCur c).inputs = s.inputs := rfl
@[simp] theorem State.withTgCur_heldCmd (c : BitVec 16) : (s.withTgCur c).heldCmd = s.heldCmd := rfl
@[simp] theorem State.withTgCur_taken (c : BitVec 16) : (s.withTgCur c).taken = s.taken := rfl

@[simp] theorem State.withTgParams_cfg (a : BitVec 16) (v : Word) : (s.withTgParams a v).cfg = s.cfg := rfl
@[simp] theorem State.withTgParams_mtw (a : BitVec 16) (v : Word) : (s.withTgParams a v).mtw = s.mtw := rfl
@[simp] theorem State.withTgParams_mtCur (a : BitVec 16) (v : Word) : (s.withTgParams a v).mtCur = s.mtCur := rfl
@[simp] theorem State.withTgParams_tgs (a : BitVec 16) (v : Word) : (s.withTgParams a v).tgs = s.tgs := rfl
@[simp] theorem State.withTgParams_tgCur (a : BitVec 16) (v : Word) : (s.withTgParams a v).tgCur = s.tgCur := rfl
@[simp] theorem State.withTgParams_tgTap (a : BitVec 16) (v : Word) : (s.withTgParams a v).tgTap = a := rfl
@[simp] theorem State.withTgParams_tgTwist (a : BitVec 16) (v : Word) : (s.withTgParams a v).tgTwist = v := rfl
@[simp] theorem State.withTgParams_tgPhase (a : BitVec 16) (v : Word) : (s.withTgParams a v).tgPhase = s.tgPhase := rfl
@[simp] theorem State.withTgParams_tgLdptr (a : BitVec 16) (v : Word) : (s.withTgParams a v).tgLdptr = s.tgLdptr := rfl
@[simp] theorem State.withTgParams_ifBusy (a : BitVec 16) (v : Word) : (s.withTgParams a v).ifBusy = s.ifBusy := rfl
@[simp] theorem State.withTgParams_rspValid (a : BitVec 16) (v : Word) : (s.withTgParams a v).rspValid = s.rspValid := rfl
@[simp] theorem State.withTgParams_rspBuf (a : BitVec 16) (v : Word) : (s.withTgParams a v).rspBuf = s.rspBuf := rfl
@[simp] theorem State.withTgParams_inputs (a : BitVec 16) (v : Word) : (s.withTgParams a v).inputs = s.inputs := rfl
@[simp] theorem State.withTgParams_heldCmd (a : BitVec 16) (v : Word) : (s.withTgParams a v).heldCmd = s.heldCmd := rfl
@[simp] theorem State.withTgParams_taken (a : BitVec 16) (v : Word) : (s.withTgParams a v).taken = s.taken := rfl

@[simp] theorem State.withTgLoad_cfg (p : BitVec 16) (h : BitVec 2) : (s.withTgLoad p h).cfg = s.cfg := rfl
@[simp] theorem State.withTgLoad_mtw (p : BitVec 16) (h : BitVec 2) : (s.withTgLoad p h).mtw = s.mtw := rfl
@[simp] theorem State.withTgLoad_mtCur (p : BitVec 16) (h : BitVec 2) : (s.withTgLoad p h).mtCur = s.mtCur := rfl
@[simp] theorem State.withTgLoad_tgs (p : BitVec 16) (h : BitVec 2) : (s.withTgLoad p h).tgs = s.tgs := rfl
@[simp] theorem State.withTgLoad_tgCur (p : BitVec 16) (h : BitVec 2) : (s.withTgLoad p h).tgCur = s.tgCur := rfl
@[simp] theorem State.withTgLoad_tgTap (p : BitVec 16) (h : BitVec 2) : (s.withTgLoad p h).tgTap = s.tgTap := rfl
@[simp] theorem State.withTgLoad_tgTwist (p : BitVec 16) (h : BitVec 2) : (s.withTgLoad p h).tgTwist = s.tgTwist := rfl
@[simp] theorem State.withTgLoad_tgPhase (p : BitVec 16) (h : BitVec 2) : (s.withTgLoad p h).tgPhase = h := rfl
@[simp] theorem State.withTgLoad_tgLdptr (p : BitVec 16) (h : BitVec 2) : (s.withTgLoad p h).tgLdptr = p := rfl
@[simp] theorem State.withTgLoad_ifBusy (p : BitVec 16) (h : BitVec 2) : (s.withTgLoad p h).ifBusy = s.ifBusy := rfl
@[simp] theorem State.withTgLoad_rspValid (p : BitVec 16) (h : BitVec 2) : (s.withTgLoad p h).rspValid = s.rspValid := rfl
@[simp] theorem State.withTgLoad_rspBuf (p : BitVec 16) (h : BitVec 2) : (s.withTgLoad p h).rspBuf = s.rspBuf := rfl
@[simp] theorem State.withTgLoad_inputs (p : BitVec 16) (h : BitVec 2) : (s.withTgLoad p h).inputs = s.inputs := rfl
@[simp] theorem State.withTgLoad_heldCmd (p : BitVec 16) (h : BitVec 2) : (s.withTgLoad p h).heldCmd = s.heldCmd := rfl
@[simp] theorem State.withTgLoad_taken (p : BitVec 16) (h : BitVec 2) : (s.withTgLoad p h).taken = s.taken := rfl

@[simp] theorem State.respond_cfg (st : Status) (d : Word) : (s.respond st d).cfg = s.cfg := rfl
@[simp] theorem State.respond_mtw (st : Status) (d : Word) : (s.respond st d).mtw = s.mtw := rfl
@[simp] theorem State.respond_mtCur (st : Status) (d : Word) : (s.respond st d).mtCur = s.mtCur := rfl
@[simp] theorem State.respond_tgs (st : Status) (d : Word) : (s.respond st d).tgs = s.tgs := rfl
@[simp] theorem State.respond_tgCur (st : Status) (d : Word) : (s.respond st d).tgCur = s.tgCur := rfl
@[simp] theorem State.respond_tgTap (st : Status) (d : Word) : (s.respond st d).tgTap = s.tgTap := rfl
@[simp] theorem State.respond_tgTwist (st : Status) (d : Word) : (s.respond st d).tgTwist = s.tgTwist := rfl
@[simp] theorem State.respond_tgPhase (st : Status) (d : Word) : (s.respond st d).tgPhase = s.tgPhase := rfl
@[simp] theorem State.respond_tgLdptr (st : Status) (d : Word) : (s.respond st d).tgLdptr = s.tgLdptr := rfl
@[simp] theorem State.respond_ifBusy (st : Status) (d : Word) : (s.respond st d).ifBusy = s.ifBusy := rfl
@[simp] theorem State.respond_rspValid (st : Status) (d : Word) : (s.respond st d).rspValid = s.rspValid := rfl
@[simp] theorem State.respond_rspBuf (st : Status) (d : Word) : (s.respond st d).rspBuf = packResponse st d := rfl
@[simp] theorem State.respond_inputs (st : Status) (d : Word) : (s.respond st d).inputs = s.inputs := rfl
@[simp] theorem State.respond_heldCmd (st : Status) (d : Word) : (s.respond st d).heldCmd = s.heldCmd := rfl
@[simp] theorem State.respond_taken (st : Status) (d : Word) : (s.respond st d).taken = s.taken := rfl

@[simp] theorem State.raise_cfg (st : Status) : (s.raise st).cfg = s.cfg := rfl
@[simp] theorem State.raise_mtw (st : Status) : (s.raise st).mtw = s.mtw := rfl
@[simp] theorem State.raise_mtCur (st : Status) : (s.raise st).mtCur = s.mtCur := rfl
@[simp] theorem State.raise_tgs (st : Status) : (s.raise st).tgs = s.tgs := rfl
@[simp] theorem State.raise_tgCur (st : Status) : (s.raise st).tgCur = s.tgCur := rfl
@[simp] theorem State.raise_tgTap (st : Status) : (s.raise st).tgTap = s.tgTap := rfl
@[simp] theorem State.raise_tgTwist (st : Status) : (s.raise st).tgTwist = s.tgTwist := rfl
@[simp] theorem State.raise_tgPhase (st : Status) : (s.raise st).tgPhase = s.tgPhase := rfl
@[simp] theorem State.raise_tgLdptr (st : Status) : (s.raise st).tgLdptr = s.tgLdptr := rfl
@[simp] theorem State.raise_ifBusy (st : Status) : (s.raise st).ifBusy = s.ifBusy := rfl
@[simp] theorem State.raise_rspValid (st : Status) : (s.raise st).rspValid = s.rspValid := rfl
@[simp] theorem State.raise_rspBuf (st : Status) : (s.raise st).rspBuf = packResponse st 0 := rfl
@[simp] theorem State.raise_inputs (st : Status) : (s.raise st).inputs = s.inputs := rfl
@[simp] theorem State.raise_heldCmd (st : Status) : (s.raise st).heldCmd = s.heldCmd := rfl
@[simp] theorem State.raise_taken (st : Status) : (s.raise st).taken = s.taken := rfl

@[simp] theorem State.useInput_cfg : (s.useInput).cfg = s.cfg := rfl
@[simp] theorem State.useInput_mtw : (s.useInput).mtw = s.mtw := rfl
@[simp] theorem State.useInput_mtCur : (s.useInput).mtCur = s.mtCur := rfl
@[simp] theorem State.useInput_tgs : (s.useInput).tgs = s.tgs := rfl
@[simp] theorem State.useInput_tgCur : (s.useInput).tgCur = s.tgCur := rfl
@[simp] theorem State.useInput_tgTap : (s.useInput).tgTap = s.tgTap := rfl
@[simp] theorem State.useInput_tgTwist : (s.useInput).tgTwist = s.tgTwist := rfl
@[simp] theorem State.useInput_tgPhase : (s.useInput).tgPhase = s.tgPhase := rfl
@[simp] theorem State.useInput_tgLdptr : (s.useInput).tgLdptr = s.tgLdptr := rfl
@[simp] theorem State.useInput_ifBusy : (s.useInput).ifBusy = s.ifBusy := rfl
@[simp] theorem State.useInput_rspValid : (s.useInput).rspValid = s.rspValid := rfl
@[simp] theorem State.useInput_rspBuf : (s.useInput).rspBuf = s.rspBuf := rfl
@[simp] theorem State.useInput_inputs : (s.useInput).inputs = s.inputs.tail := rfl
@[simp] theorem State.useInput_heldCmd : (s.useInput).heldCmd = offerHeld s.portIn s := rfl
@[simp] theorem State.useInput_taken : (s.useInput).taken = s.taken := rfl

@[simp] theorem State.resetEdge_cfg : (s.resetEdge).cfg = s.cfg := rfl
@[simp] theorem State.resetEdge_mtw : (s.resetEdge).mtw = [] := rfl
@[simp] theorem State.resetEdge_mtCur : (s.resetEdge).mtCur = 0x1FF := rfl
@[simp] theorem State.resetEdge_tgs : (s.resetEdge).tgs = [] := rfl
@[simp] theorem State.resetEdge_tgCur : (s.resetEdge).tgCur = 0 := rfl
@[simp] theorem State.resetEdge_tgTap : (s.resetEdge).tgTap = 0 := rfl
@[simp] theorem State.resetEdge_tgTwist : (s.resetEdge).tgTwist = 0 := rfl
@[simp] theorem State.resetEdge_tgPhase : (s.resetEdge).tgPhase = 0 := rfl
@[simp] theorem State.resetEdge_tgLdptr : (s.resetEdge).tgLdptr = 0 := rfl
@[simp] theorem State.resetEdge_ifBusy : (s.resetEdge).ifBusy = false := rfl
@[simp] theorem State.resetEdge_rspValid : (s.resetEdge).rspValid = false := rfl
@[simp] theorem State.resetEdge_rspBuf : (s.resetEdge).rspBuf = 0 := rfl
@[simp] theorem State.resetEdge_inputs : (s.resetEdge).inputs = s.inputs := rfl
@[simp] theorem State.resetEdge_heldCmd : (s.resetEdge).heldCmd = s.heldCmd := rfl
@[simp] theorem State.resetEdge_taken : (s.resetEdge).taken = s.taken := rfl

@[simp] theorem State.beginBusy_cfg : (s.beginBusy).cfg = s.cfg := rfl
@[simp] theorem State.beginBusy_mtw : (s.beginBusy).mtw = s.mtw := rfl
@[simp] theorem State.beginBusy_mtCur : (s.beginBusy).mtCur = s.mtCur := rfl
@[simp] theorem State.beginBusy_tgs : (s.beginBusy).tgs = s.tgs := rfl
@[simp] theorem State.beginBusy_tgCur : (s.beginBusy).tgCur = s.tgCur := rfl
@[simp] theorem State.beginBusy_tgTap : (s.beginBusy).tgTap = s.tgTap := rfl
@[simp] theorem State.beginBusy_tgTwist : (s.beginBusy).tgTwist = s.tgTwist := rfl
@[simp] theorem State.beginBusy_tgPhase : (s.beginBusy).tgPhase = s.tgPhase := rfl
@[simp] theorem State.beginBusy_tgLdptr : (s.beginBusy).tgLdptr = s.tgLdptr := rfl
@[simp] theorem State.beginBusy_ifBusy : (s.beginBusy).ifBusy = true := rfl
@[simp] theorem State.beginBusy_rspValid : (s.beginBusy).rspValid = false := rfl
@[simp] theorem State.beginBusy_rspBuf : (s.beginBusy).rspBuf = s.rspBuf := rfl
@[simp] theorem State.beginBusy_inputs : (s.beginBusy).inputs = s.inputs := rfl
@[simp] theorem State.beginBusy_heldCmd : (s.beginBusy).heldCmd = s.heldCmd := rfl
@[simp] theorem State.beginBusy_taken : (s.beginBusy).taken = s.taken := rfl

@[simp] theorem State.present_cfg : (s.present).cfg = s.cfg := rfl
@[simp] theorem State.present_mtw : (s.present).mtw = s.mtw := rfl
@[simp] theorem State.present_mtCur : (s.present).mtCur = s.mtCur := rfl
@[simp] theorem State.present_tgs : (s.present).tgs = s.tgs := rfl
@[simp] theorem State.present_tgCur : (s.present).tgCur = s.tgCur := rfl
@[simp] theorem State.present_tgTap : (s.present).tgTap = s.tgTap := rfl
@[simp] theorem State.present_tgTwist : (s.present).tgTwist = s.tgTwist := rfl
@[simp] theorem State.present_tgPhase : (s.present).tgPhase = s.tgPhase := rfl
@[simp] theorem State.present_tgLdptr : (s.present).tgLdptr = s.tgLdptr := rfl
@[simp] theorem State.present_ifBusy : (s.present).ifBusy = s.ifBusy := rfl
@[simp] theorem State.present_rspValid : (s.present).rspValid = true := rfl
@[simp] theorem State.present_rspBuf : (s.present).rspBuf = s.rspBuf := rfl
@[simp] theorem State.present_inputs : (s.present).inputs = s.inputs := rfl
@[simp] theorem State.present_heldCmd : (s.present).heldCmd = s.heldCmd := rfl
@[simp] theorem State.present_taken : (s.present).taken = s.taken := rfl

@[simp] theorem State.takeResponse_cfg : (s.takeResponse).cfg = s.cfg := rfl
@[simp] theorem State.takeResponse_mtw : (s.takeResponse).mtw = s.mtw := rfl
@[simp] theorem State.takeResponse_mtCur : (s.takeResponse).mtCur = s.mtCur := rfl
@[simp] theorem State.takeResponse_tgs : (s.takeResponse).tgs = s.tgs := rfl
@[simp] theorem State.takeResponse_tgCur : (s.takeResponse).tgCur = s.tgCur := rfl
@[simp] theorem State.takeResponse_tgTap : (s.takeResponse).tgTap = s.tgTap := rfl
@[simp] theorem State.takeResponse_tgTwist : (s.takeResponse).tgTwist = s.tgTwist := rfl
@[simp] theorem State.takeResponse_tgPhase : (s.takeResponse).tgPhase = s.tgPhase := rfl
@[simp] theorem State.takeResponse_tgLdptr : (s.takeResponse).tgLdptr = s.tgLdptr := rfl
@[simp] theorem State.takeResponse_ifBusy : (s.takeResponse).ifBusy = false := rfl
@[simp] theorem State.takeResponse_rspValid : (s.takeResponse).rspValid = false := rfl
@[simp] theorem State.takeResponse_rspBuf : (s.takeResponse).rspBuf = s.rspBuf := rfl
@[simp] theorem State.takeResponse_inputs : (s.takeResponse).inputs = s.inputs := rfl
@[simp] theorem State.takeResponse_heldCmd : (s.takeResponse).heldCmd = s.heldCmd := rfl
@[simp] theorem State.takeResponse_taken : (s.takeResponse).taken = s.taken ++ [s.rspBuf] := rfl

@[simp] theorem State.offering_cfg (w : CmdWord) : (s.offering w).cfg = s.cfg := rfl
@[simp] theorem State.offering_mtw (w : CmdWord) : (s.offering w).mtw = s.mtw := rfl
@[simp] theorem State.offering_mtCur (w : CmdWord) : (s.offering w).mtCur = s.mtCur := rfl
@[simp] theorem State.offering_tgs (w : CmdWord) : (s.offering w).tgs = s.tgs := rfl
@[simp] theorem State.offering_tgCur (w : CmdWord) : (s.offering w).tgCur = s.tgCur := rfl
@[simp] theorem State.offering_tgTap (w : CmdWord) : (s.offering w).tgTap = s.tgTap := rfl
@[simp] theorem State.offering_tgTwist (w : CmdWord) : (s.offering w).tgTwist = s.tgTwist := rfl
@[simp] theorem State.offering_tgPhase (w : CmdWord) : (s.offering w).tgPhase = s.tgPhase := rfl
@[simp] theorem State.offering_tgLdptr (w : CmdWord) : (s.offering w).tgLdptr = s.tgLdptr := rfl
@[simp] theorem State.offering_ifBusy (w : CmdWord) : (s.offering w).ifBusy = false := rfl
@[simp] theorem State.offering_rspValid (w : CmdWord) : (s.offering w).rspValid = false := rfl
@[simp] theorem State.offering_rspBuf (w : CmdWord) : (s.offering w).rspBuf = s.rspBuf := rfl
@[simp] theorem State.offering_inputs (w : CmdWord) : (s.offering w).inputs = PortIn.offer w :: s.inputs := rfl
@[simp] theorem State.offering_heldCmd (w : CmdWord) : (s.offering w).heldCmd = none := rfl
@[simp] theorem State.offering_taken (w : CmdWord) : (s.offering w).taken = s.taken := rfl

@[simp] theorem State.withProgram_cfg (ws : List CmdWord) : (s.withProgram ws).cfg = s.cfg := rfl
@[simp] theorem State.withProgram_mtw (ws : List CmdWord) : (s.withProgram ws).mtw = s.mtw := rfl
@[simp] theorem State.withProgram_mtCur (ws : List CmdWord) : (s.withProgram ws).mtCur = s.mtCur := rfl
@[simp] theorem State.withProgram_tgs (ws : List CmdWord) : (s.withProgram ws).tgs = s.tgs := rfl
@[simp] theorem State.withProgram_tgCur (ws : List CmdWord) : (s.withProgram ws).tgCur = s.tgCur := rfl
@[simp] theorem State.withProgram_tgTap (ws : List CmdWord) : (s.withProgram ws).tgTap = s.tgTap := rfl
@[simp] theorem State.withProgram_tgTwist (ws : List CmdWord) : (s.withProgram ws).tgTwist = s.tgTwist := rfl
@[simp] theorem State.withProgram_tgPhase (ws : List CmdWord) : (s.withProgram ws).tgPhase = s.tgPhase := rfl
@[simp] theorem State.withProgram_tgLdptr (ws : List CmdWord) : (s.withProgram ws).tgLdptr = s.tgLdptr := rfl
@[simp] theorem State.withProgram_ifBusy (ws : List CmdWord) : (s.withProgram ws).ifBusy = s.ifBusy := rfl
@[simp] theorem State.withProgram_rspValid (ws : List CmdWord) : (s.withProgram ws).rspValid = s.rspValid := rfl
@[simp] theorem State.withProgram_rspBuf (ws : List CmdWord) : (s.withProgram ws).rspBuf = s.rspBuf := rfl
@[simp] theorem State.withProgram_inputs (ws : List CmdWord) : (s.withProgram ws).inputs = hostScript ws := rfl
@[simp] theorem State.withProgram_heldCmd (ws : List CmdWord) : (s.withProgram ws).heldCmd = s.heldCmd := rfl
@[simp] theorem State.withProgram_taken (ws : List CmdWord) : (s.withProgram ws).taken = s.taken := rfl

/-- Two states with equal fields are equal. -/
theorem State.ext_fields {s t : State} (h1 : s.cfg = t.cfg) (h2 : s.mtw = t.mtw) (h3 : s.mtCur = t.mtCur)
    (h4 : s.tgs = t.tgs) (h5 : s.tgCur = t.tgCur) (h6 : s.tgTap = t.tgTap) (h7 : s.tgTwist = t.tgTwist)
    (h8 : s.tgPhase = t.tgPhase) (h9 : s.tgLdptr = t.tgLdptr) (h10 : s.ifBusy = t.ifBusy)
    (h11 : s.rspValid = t.rspValid) (h12 : s.rspBuf = t.rspBuf) (h13 : s.inputs = t.inputs)
    (h14 : s.heldCmd = t.heldCmd) (h15 : s.taken = t.taken) : s = t := by
  cases s
  cases t
  simp_all

end Sys2Proof.Machine
end

