-- ==== Sys2Proof/Laws/Ops.lean ====
section
/-!
SUPPORT. One lemma per shared operation that says all it can do: the array primitives, truncation, the response word and
the outcome of a command whose accesses may fault.
-/

namespace Sys2Proof.Machine

theorem readSlot_ok_iff {n : Nat} {m : Memory} {i : Nat} {w : Word} :
    readSlot n m i = .ok w ↔ i < n ∧ m.read? i = some w := by
  unfold readSlot
  split <;> rename_i h
  · cases m.read? i <;> simp [h]
  · simp [h]

theorem readSlot_full {n k : Nat} {m : Memory} (h : m.full k) {i : Nat} (hi : i < k) (hn : i < n) :
    ∃ w, m.read? i = some w ∧ readSlot n m i = .ok w := by
  obtain ⟨w, hw⟩ := h i hi
  exact ⟨w, hw, readSlot_ok_iff.2 ⟨hn, hw⟩⟩

theorem writeSlot_ok_iff {n : Nat} {m m' : Memory} {i : Nat} {v : Word} :
    writeSlot n m i v = .ok m' ↔ i < n ∧ m' = m.write i v := by
  unfold writeSlot
  split <;> rename_i h <;> simp [h, eq_comm]

theorem mtRead_ok_iff {m : Memory} {i : Nat} {w : Word} : mtRead m i = .ok w ↔ i < 340 ∧ m.read? i = some w :=
  readSlot_ok_iff

theorem mtWrite_ok_iff {m m' : Memory} {i : Nat} {v : Word} :
    mtWrite m i v = .ok m' ↔ i < 340 ∧ m' = m.write i v := writeSlot_ok_iff

theorem tgRead_ok_iff {cfg : Config} {m : Memory} {i : Nat} {w : Word} :
    tgRead cfg m i = .ok w ↔ i < cfg.tgN ∧ m.read? i = some w := readSlot_ok_iff

theorem tgWrite_ok_iff {cfg : Config} {m m' : Memory} {i : Nat} {v : Word} :
    tgWrite cfg m i v = .ok m' ↔ i < cfg.tgN ∧ m' = m.write i (truncTG cfg v) := writeSlot_ok_iff

/-- A sequence of accesses succeeds exactly when the first does and then the rest. -/
theorem bind_ok_iff {ε α β : Type} {x : Except ε α} {f : α → Except ε β} {b : β} :
    (x >>= f) = .ok b ↔ ∃ a, x = .ok a ∧ f a = .ok b := by
  cases x <;> simp [bind, Except.bind]

@[simp] theorem ok_bind' {ε α β : Type} (a : α) (f : α → Except ε β) : ((Except.ok a : Except ε α) >>= f) = f a := rfl

@[simp] theorem finish_ok (s : State) : finish (.ok s) = .next s := rfl

theorem finish_next_iff {r : Except Fault State} {t : State} : finish r = .next t ↔ r = .ok t := by
  cases r <;> simp [finish]

theorem pow_tgW_le (cfg : Config) : 2 ^ cfg.tgW ≤ 2 ^ 64 := Nat.pow_le_pow_right (by omega) cfg.tgW_le

@[simp] theorem truncTG_toNat (cfg : Config) (v : Word) : (truncTG cfg v).toNat = v.toNat % 2 ^ cfg.tgW := by
  have := pow_tgW_le cfg
  have := Nat.mod_lt v.toNat (Nat.two_pow_pos cfg.tgW)
  simp only [truncTG, BitVec.toNat_ofNat]
  exact Nat.mod_eq_of_lt (by omega)

theorem truncTG_lt (cfg : Config) (v : Word) : (truncTG cfg v).toNat < 2 ^ cfg.tgW := by
  rw [truncTG_toNat]
  exact Nat.mod_lt _ (Nat.two_pow_pos _)

/-- A word of `TG_W` bits is its own truncation. -/
theorem truncTG_of_lt {cfg : Config} {v : Word} (h : v.toNat < 2 ^ cfg.tgW) : truncTG cfg v = v := by
  apply BitVec.eq_of_toNat_eq
  rw [truncTG_toNat, Nat.mod_eq_of_lt h]

@[simp] theorem zextTG_eq_truncTG (cfg : Config) (v : Word) : zextTG cfg v = truncTG cfg v := rfl

@[simp] theorem truncTG_truncTG (cfg : Config) (v : Word) : truncTG cfg (truncTG cfg v) = truncTG cfg v :=
  truncTG_of_lt (truncTG_lt cfg v)

@[simp] theorem rspData_pack (st : Status) (d : Word) : rspData (packResponse st d) = d :=
  extract_low (0#5 ++ st.code) d

@[simp] theorem rspStatus_pack (st : Status) (d : Word) : rspStatus (packResponse st d) = st.code :=
  (extract_skip (0#5 ++ st.code) d 0 3).trans (extract_low 0#5 st.code)

@[simp] theorem rspReserved_pack (st : Status) (d : Word) : rspReserved (packResponse st d) = 0 :=
  (extract_skip (0#5 ++ st.code) d 3 5).trans (extract_high 0#5 st.code)

theorem Status.code_le (st : Status) : st.code.toNat ≤ 4 := by cases st <;> decide

theorem Status.code_eq_zero {st : Status} : st.code = 0 ↔ st = .ok := by cases st <;> decide

/-- The response of a command that ends well. -/
theorem rspLegal_ok (d : Word) : rspLegal (packResponse .ok d) := by
  simp [rspLegal, Status.code]

/-- The response of a command that ends in an error. -/
theorem rspLegal_error (st : Status) : rspLegal (packResponse st 0) := by
  simp [rspLegal, st.code_le]

end Sys2Proof.Machine
end

