-- ==== Sys2Proof/Laws/Mt.lean ====
section
/-!
SUPPORT. The MT engine's functions (40_mt19937_64.md): what seeding, a twist step and the whole twist do, each said once.
-/

namespace Sys2Proof.Machine

/-- The seeded word of slot `k`, from the word `w` of slot `i` and `k` more slots (R90). -/
def seedWordAt (i : Nat) (w : Word) : Nat → Word
  | 0 => w
  | k + 1 => seedWordAt (i + 1) (seedNext (i + 1) w) k

theorem seedWordAt_succ (k i : Nat) (w : Word) :
    seedWordAt i w (k + 1) = seedNext (i + k + 1) (seedWordAt i w k) := by
  induction k generalizing i w with
  | zero => rfl
  | succ k ih =>
    show seedWordAt (i + 1) (seedNext (i + 1) w) (k + 1) = _
    rw [ih]
    show seedNext (i + 1 + k + 1) _ = seedNext (i + (k + 1) + 1) _
    congr 1
    omega

theorem seedSlots_read? (n i : Nat) (w : Word) (k : Nat) :
    (seedSlots n i w).read? k = if i ≤ k ∧ k < i + n then some (seedWordAt i w (k - i)) else none := by
  induction n generalizing i w with
  | zero => rw [if_neg (by omega)]; rfl
  | succ n ih =>
    show Memory.read? ((i, w) :: seedSlots n (i + 1) (seedNext (i + 1) w)) k = _
    rw [Memory.read?_cons, ih]
    by_cases hk : k = i
    · subst hk
      rw [if_pos rfl, if_pos ⟨Nat.le_refl _, by omega⟩, Nat.sub_self]
      rfl
    · rw [if_neg hk]
      by_cases h : i + 1 ≤ k ∧ k < i + 1 + n
      · rw [if_pos h, if_pos (by omega)]
        obtain ⟨d, rfl⟩ : ∃ d, k = i + d + 1 := ⟨k - i - 1, by omega⟩
        rw [show i + d + 1 - (i + 1) = d by omega, show i + d + 1 - i = d + 1 by omega]
        rfl
      · rw [if_neg h, if_neg (by omega)]

theorem seedSlots_lt {n i : Nat} {w : Word} {c : Cell} (h : c ∈ seedSlots n i w) : i ≤ c.1 ∧ c.1 < i + n := by
  induction n generalizing i w with
  | zero => simp [seedSlots] at h
  | succ n ih =>
    rcases List.mem_cons.1 h with rfl | h
    · exact ⟨Nat.le_refl i, by show i < _; omega⟩
    · have := ih h
      omega

theorem seedSlots_wf (n i : Nat) (w : Word) : (seedSlots n i w).wf := by
  induction n generalizing i w with
  | zero => exact List.Pairwise.nil
  | succ n ih =>
    refine Memory.wf_cons.2 ⟨?_, ih _ _⟩
    intro c hc
    have := (seedSlots_lt hc).1
    omega

/-- Seeding writes slots 0 to 339 and no other (R90). -/
theorem mtSeedFn_read? (seed : Word) (k : Nat) :
    (mtSeedFn seed).read? k = if k < 340 then some (seedWordAt 0 seed k) else none := by
  unfold mtSeedFn mtNalloc
  rw [seedSlots_read?]
  simp

theorem mtSeedFn_wf (seed : Word) : (mtSeedFn seed).wf := seedSlots_wf _ _ _

theorem mtSeedFn_below (seed : Word) : (mtSeedFn seed).below 340 := by
  intro c hc
  have := (seedSlots_lt hc).2
  simp only [mtNalloc] at this
  omega

theorem mtSeedFn_full (seed : Word) : (mtSeedFn seed).full 340 := by
  intro i hi
  exact ⟨_, by rw [mtSeedFn_read?, if_pos hi]⟩

/-- A twist step reads three slots and writes slot `i` (R91). -/
theorem twistStep_ok_iff {m m' : Memory} {i : Nat} :
    twistStep m i = .ok m' ↔
      ∃ wi wj wm, i < 340 ∧ m.read? i = some wi ∧ m.read? ((i + 1) % 312) = some wj ∧
        m.read? ((i + 156) % 312) = some wm ∧ m' = m.write i (wm ^^^ twistMix wi wj) := by
  unfold twistStep mtN mtM
  simp only [bind_ok_iff, mtRead_ok_iff, mtWrite_ok_iff]
  constructor
  · rintro ⟨wi, ⟨hi, h1⟩, wj, ⟨-, h2⟩, wm, ⟨-, h3⟩, -, rfl⟩
    exact ⟨wi, wj, wm, hi, h1, h2, h3, rfl⟩
  · rintro ⟨wi, wj, wm, hi, h1, h2, h3, rfl⟩
    exact ⟨wi, ⟨hi, h1⟩, wj, ⟨by omega, h2⟩, wm, ⟨by omega, h3⟩, hi, rfl⟩

/-- A twist step on an array with the recurrence slots full goes through. -/
theorem twistStep_full {m : Memory} (h : m.full 312) {i : Nat} (hi : i < 312) :
    ∃ v, twistStep m i = .ok (m.write i v) := by
  obtain ⟨wi, h1⟩ := h i hi
  obtain ⟨wj, h2⟩ := h ((i + 1) % 312) (by omega)
  obtain ⟨wm, h3⟩ := h ((i + 156) % 312) (by omega)
  exact ⟨_, twistStep_ok_iff.2 ⟨wi, wj, wm, by omega, h1, h2, h3, rfl⟩⟩

/-- What every twist step keeps, the whole twist keeps. -/
theorem twistFrom_induction {P : Memory → Prop} {n i : Nat} {m m' : Memory}
    (step : ∀ k m v, i ≤ k → k < i + n → P m → P (m.write k v)) (h : twistFrom n i m = .ok m') (hm : P m) :
    P m' := by
  induction n generalizing i m with
  | zero =>
    cases h
    exact hm
  | succ n ih =>
    obtain ⟨m1, h1, h2⟩ := bind_ok_iff.1 h
    obtain ⟨wi, wj, wm, -, -, -, -, rfl⟩ := twistStep_ok_iff.1 h1
    exact ih (fun k m v hk hk' => step k m v (by omega) (by omega)) h2 (step i m _ (by omega) (by omega) hm)

theorem twistFrom_full {n i : Nat} {m : Memory} (h : m.full 312) (hn : i + n ≤ 312) :
    ∃ m', twistFrom n i m = .ok m' := by
  induction n generalizing i m with
  | zero => exact ⟨m, rfl⟩
  | succ n ih =>
    obtain ⟨v, hv⟩ := twistStep_full h (i := i) (by omega)
    obtain ⟨m', hm'⟩ := ih (Memory.full_write h i v) (i := i + 1) (by omega)
    exact ⟨m', bind_ok_iff.2 ⟨_, hv, hm'⟩⟩

/-- The twist goes through when the recurrence slots are full (R42). -/
theorem mtTwistFn_full {m : Memory} (h : m.full 312) : ∃ m', mtTwistFn m = .ok m' := twistFrom_full h (by simp [mtN])

/-- The twist touches no slot at or above 312 (R21, R91). -/
theorem mtTwistFn_dead {m m' : Memory} (h : mtTwistFn m = .ok m') {k : Nat} (hk : 312 ≤ k) :
    m'.read? k = m.read? k :=
  twistFrom_induction (P := fun x => x.read? k = m.read? k)
    (fun j x v _ hj hx => by
      have hkj : k ≠ j := by
        simp only [mtN] at hj
        omega
      rw [Memory.read?_write_ne _ _ hkj, hx]) h rfl

theorem mtTwistFn_wf {m m' : Memory} (h : mtTwistFn m = .ok m') (hm : m.wf) : m'.wf :=
  twistFrom_induction (P := Memory.wf) (fun _ _ _ _ _ hx => Memory.wf_write hx _ _) h hm

theorem mtTwistFn_below {m m' : Memory} (h : mtTwistFn m = .ok m') (hm : m.below 340) : m'.below 340 :=
  twistFrom_induction (P := Memory.below 340)
    (fun _ _ _ _ hj hx => Memory.below_write hx (by simp only [mtN] at hj; omega) _) h hm

theorem mtTwistFn_keeps_full {m m' : Memory} {n : Nat} (h : mtTwistFn m = .ok m') (hm : m.full n) : m'.full n :=
  twistFrom_induction (P := Memory.full n) (fun _ _ _ _ _ hx => Memory.full_write hx _ _) h hm

/-- The twist from the cursor at the sentinel, and no change anywhere else (R96). -/
theorem mtRefill_ok_iff {s t : State} :
    mtRefill s = .ok t ↔
      (s.mtCur.toNat ≠ 312 ∧ t = s) ∨
      (s.mtCur.toNat = 312 ∧ ∃ m, mtTwistFn s.mtw = .ok m ∧ t = (s.withMtw m).withMtCur 0) := by
  unfold mtRefill mtN
  split <;> rename_i h
  · simp only [bind_ok_iff, h, Except.ok.injEq]
    simp [eq_comm]
  · simp [h, eq_comm]

end Sys2Proof.Machine
end

