-- ==== Sys2Proof/Laws/Tg.lean ====
section
/-!
SUPPORT. The TG engine's advance (41_tgfsr.md R120), said once.
-/

namespace Sys2Proof.Machine

theorem tgSrcIndex_lt (s : State) : tgSrcIndex s < s.cfg.tgN := Nat.mod_lt _ s.cfg.tgN_pos

/-- The advance reads two words, writes the current one and moves the cursor (R120). -/
theorem tgAdvanceFn_ok_iff {s t : State} :
    tgAdvanceFn s = .ok t ↔
      ∃ current src, s.tgCur.toNat < s.cfg.tgN ∧ s.tgs.read? s.tgCur.toNat = some current ∧
        s.tgs.read? (tgSrcIndex s) = some src ∧
        t = (s.withTgs (s.tgs.write s.tgCur.toNat (truncTG s.cfg (tgMix s.tgTwist current src)))).withTgCur
          (BitVec.ofNat 16 ((s.tgCur.toNat + 1) % s.cfg.tgN)) := by
  unfold tgAdvanceFn
  simp only [bind_ok_iff, tgRead_ok_iff, tgWrite_ok_iff, Except.ok.injEq]
  constructor
  · rintro ⟨current, ⟨hc, h1⟩, src, ⟨-, h2⟩, m, ⟨-, rfl⟩, rfl⟩
    exact ⟨current, src, hc, h1, h2, rfl⟩
  · rintro ⟨current, src, hc, h1, h2, rfl⟩
    exact ⟨current, ⟨hc, h1⟩, src, ⟨tgSrcIndex_lt s, h2⟩, _, ⟨hc, rfl⟩, rfl⟩

/-- A cursor taken modulo `TG_N` fits its 16 bits (R9, R26). -/
theorem tgCur_next_toNat (cfg : Config) (k : Nat) : (BitVec.ofNat 16 (k % cfg.tgN)).toNat = k % cfg.tgN := by
  have h1 := Nat.mod_lt k cfg.tgN_pos
  have h2 := cfg.tgN_le
  rw [BitVec.toNat_ofNat]
  exact Nat.mod_eq_of_lt (by omega)

/-- A load pointer up to `TG_N` fits its 16 bits (R9, R29). -/
theorem tgLdptr_next_toNat {cfg : Config} {k : Nat} (h : k < cfg.tgN) : (BitVec.ofNat 16 (k + 1)).toNat = k + 1 := by
  have h2 := cfg.tgN_le
  rw [BitVec.toNat_ofNat]
  exact Nat.mod_eq_of_lt (by omega)

end Sys2Proof.Machine
end

