-- ==== Sys2Proof/Laws/Exec.lean ====
section
/-!
SUPPORT. One lemma per command that says all it can do when it answers a next state, and where it does answer one; the
proofs about commands cite these and do not unfold a meaning.
-/

namespace Sys2Proof.Machine

variable {s t : State}

theorem exec_nop : exec .nop s = .next (s.respond .ok 0) := rfl

theorem exec_mtSeed (seed : Word) :
    exec (.mtSeed seed) s = .next (((s.withMtw (mtSeedFn seed)).withMtCur 312).respond .ok 0) := rfl

theorem exec_tgBegin (tap : Index) (twist : Word) :
    exec (.tgBegin tap twist) s =
      .next ((((s.withTgParams tap (truncTG s.cfg twist)).withTgCur 0).withTgLoad 0 phaseLoading).respond .ok 0) := rfl

theorem exec_rdreg (regno : Index) :
    exec (.rdreg regno) s =
      match readReg s regno with
      | some v => .next (s.respond .ok v)
      | none => .next (s.raise .errRange) := rfl

theorem exec_mtExtract_next_iff :
    exec .mtExtract s = .next t ↔
      (312 < s.mtCur.toNat ∧ t = s.raise .errUninit) ∨
      (s.mtCur.toNat < 312 ∧ ∃ w, s.mtw.read? s.mtCur.toNat = some w ∧
        t = (s.withMtCur (s.mtCur + 1)).respond .ok (mtTemperFn w)) ∨
      (s.mtCur.toNat = 312 ∧ ∃ m w, mtTwistFn s.mtw = .ok m ∧ m.read? 0 = some w ∧
        t = ((s.withMtw m).withMtCur 1).respond .ok (mtTemperFn w)) := by
  show execMtExtract s = .next t ↔ _
  unfold execMtExtract mtN
  split <;> rename_i h
  · have h1 : ¬ s.mtCur.toNat < 312 := by omega
    have h2 : s.mtCur.toNat ≠ 312 := by omega
    simp [h, h1, h2, eq_comm]
  · simp only [finish_next_iff, bind_ok_iff, mtRefill_ok_iff, mtRead_ok_iff, Except.ok.injEq]
    constructor
    · rintro ⟨s1, ⟨hne, rfl⟩ | ⟨heq, m, hm, rfl⟩, w, ⟨-, hw⟩, rfl⟩
      · exact .inr (.inl ⟨by omega, w, hw, rfl⟩)
      · exact .inr (.inr ⟨heq, m, w, hm, hw, rfl⟩)
    · rintro (⟨h', -⟩ | ⟨hlt, w, hw, rfl⟩ | ⟨heq, m, w, hm, hw, rfl⟩)
      · exact absurd h' h
      · exact ⟨s, .inl ⟨by omega, rfl⟩, w, ⟨by omega, hw⟩, rfl⟩
      · exact ⟨_, .inr ⟨heq, m, hm, rfl⟩, w, ⟨by simp, hw⟩, rfl⟩

theorem exec_mtRdword_next_iff {idx : Index} :
    exec (.mtRdword idx) s = .next t ↔
      (339 < idx.toNat ∧ t = s.raise .errRange) ∨
      (idx.toNat ≤ 339 ∧ 312 < s.mtCur.toNat ∧ t = s.raise .errUninit) ∨
      (idx.toNat ≤ 339 ∧ s.mtCur.toNat ≤ 312 ∧ ∃ w, s.mtw.read? idx.toNat = some w ∧ t = s.respond .ok w) := by
  show execMtRdword idx s = .next t ↔ _
  unfold execMtRdword mtN
  split <;> rename_i h
  · have : ¬ idx.toNat ≤ 339 := by omega
    simp [h, this, eq_comm]
  · have h' : idx.toNat ≤ 339 := by omega
    split <;> rename_i h2
    · have : ¬ s.mtCur.toNat ≤ 312 := by omega
      simp [h, h', h2, this, eq_comm]
    · have h2' : s.mtCur.toNat ≤ 312 := by omega
      simp only [finish_next_iff, bind_ok_iff, mtRead_ok_iff, Except.ok.injEq, h, h2, h', h2', false_and, and_false,
        true_and, false_or]
      constructor
      · rintro ⟨w, ⟨-, hw⟩, rfl⟩
        exact ⟨w, hw, rfl⟩
      · rintro ⟨w, hw, rfl⟩
        exact ⟨w, ⟨by omega, hw⟩, rfl⟩

/-- The state after a push that is not turned away (R122). -/
def pushed (s : State) (word : Word) : State :=
  ((s.withTgs (s.tgs.write s.tgLdptr.toNat (truncTG s.cfg word))).withTgLoad (BitVec.ofNat 16 (s.tgLdptr.toNat + 1))
    (if s.tgLdptr.toNat + 1 = s.cfg.tgN then phaseReady else s.tgPhase)).respond .ok 0

@[simp] theorem pushed_cfg (s : State) (w : Word) : (pushed s w).cfg = s.cfg := rfl

@[simp] theorem pushed_mtw (s : State) (w : Word) : (pushed s w).mtw = s.mtw := rfl

@[simp] theorem pushed_mtCur (s : State) (w : Word) : (pushed s w).mtCur = s.mtCur := rfl

@[simp] theorem pushed_tgs (s : State) (w : Word) :
    (pushed s w).tgs = s.tgs.write s.tgLdptr.toNat (truncTG s.cfg w) := rfl

@[simp] theorem pushed_tgCur (s : State) (w : Word) : (pushed s w).tgCur = s.tgCur := rfl

@[simp] theorem pushed_tgTap (s : State) (w : Word) : (pushed s w).tgTap = s.tgTap := rfl

@[simp] theorem pushed_tgTwist (s : State) (w : Word) : (pushed s w).tgTwist = s.tgTwist := rfl

@[simp] theorem pushed_tgPhase (s : State) (w : Word) :
    (pushed s w).tgPhase = if s.tgLdptr.toNat + 1 = s.cfg.tgN then phaseReady else s.tgPhase := rfl

@[simp] theorem pushed_tgLdptr (s : State) (w : Word) :
    (pushed s w).tgLdptr = BitVec.ofNat 16 (s.tgLdptr.toNat + 1) := rfl

@[simp] theorem pushed_ifBusy (s : State) (w : Word) : (pushed s w).ifBusy = s.ifBusy := rfl

@[simp] theorem pushed_rspValid (s : State) (w : Word) : (pushed s w).rspValid = s.rspValid := rfl

@[simp] theorem pushed_rspBuf (s : State) (w : Word) :
    (pushed s w).rspBuf = packResponse .ok 0 := rfl

@[simp] theorem pushed_inputs (s : State) (w : Word) : (pushed s w).inputs = s.inputs := rfl

@[simp] theorem pushed_heldCmd (s : State) (w : Word) : (pushed s w).heldCmd = s.heldCmd := rfl

@[simp] theorem pushed_taken (s : State) (w : Word) : (pushed s w).taken = s.taken := rfl

theorem exec_tgPush_next_iff {word : Word} :
    exec (.tgPush word) s = .next t ↔
      (s.tgPhase ≠ phaseLoading ∧ t = s.raise .errSeq) ∨
      (s.tgPhase = phaseLoading ∧ s.tgLdptr.toNat < s.cfg.tgN ∧ t = pushed s word) := by
  show execTgPush word s = .next t ↔ _
  unfold execTgPush
  split <;> rename_i h
  · simp [h, eq_comm]
  · have h' : s.tgPhase = phaseLoading := by simpa using h
    simp only [finish_next_iff, bind_ok_iff, tgWrite_ok_iff, Except.ok.injEq]
    constructor
    · rintro ⟨m, ⟨hl, rfl⟩, rfl⟩
      exact .inr ⟨h', hl, rfl⟩
    · rintro (⟨hn, -⟩ | ⟨-, hl, rfl⟩)
      · exact absurd h' hn
      · exact ⟨_, ⟨hl, rfl⟩, rfl⟩

theorem exec_tgOutput_next_iff :
    exec .tgOutput s = .next t ↔
      (s.tgPhase ≠ phaseReady ∧ t = s.raise .errUninit) ∨
      (s.tgPhase = phaseReady ∧ s.tgCur.toNat < s.cfg.tgN ∧ ∃ w, s.tgs.read? s.tgCur.toNat = some w ∧
        t = s.respond .ok (truncTG s.cfg w)) := by
  show execTgOutput s = .next t ↔ _
  unfold execTgOutput
  split <;> rename_i h
  · simp [h, eq_comm]
  · have h' : s.tgPhase = phaseReady := by simpa using h
    simp only [finish_next_iff, bind_ok_iff, tgRead_ok_iff, Except.ok.injEq, zextTG_eq_truncTG]
    constructor
    · rintro ⟨w, ⟨hc, hw⟩, rfl⟩
      exact .inr ⟨h', hc, w, hw, rfl⟩
    · rintro (⟨hn, -⟩ | ⟨-, hc, w, hw, rfl⟩)
      · exact absurd h' hn
      · exact ⟨w, ⟨hc, hw⟩, rfl⟩

/-- The state after an advance of the words `current` and `src` (R120). -/
def advanced (s : State) (current src : Word) : State :=
  (s.withTgs (s.tgs.write s.tgCur.toNat (truncTG s.cfg (tgMix s.tgTwist current src)))).withTgCur
    (BitVec.ofNat 16 ((s.tgCur.toNat + 1) % s.cfg.tgN))

@[simp] theorem advanced_cfg (s : State) (c d : Word) : (advanced s c d).cfg = s.cfg := rfl

@[simp] theorem advanced_mtw (s : State) (c d : Word) : (advanced s c d).mtw = s.mtw := rfl

@[simp] theorem advanced_mtCur (s : State) (c d : Word) : (advanced s c d).mtCur = s.mtCur := rfl

@[simp] theorem advanced_tgs (s : State) (c d : Word) :
    (advanced s c d).tgs = s.tgs.write s.tgCur.toNat (truncTG s.cfg (tgMix s.tgTwist c d)) := rfl

@[simp] theorem advanced_tgCur (s : State) (c d : Word) :
    (advanced s c d).tgCur = BitVec.ofNat 16 ((s.tgCur.toNat + 1) % s.cfg.tgN) := rfl

@[simp] theorem advanced_tgTap (s : State) (c d : Word) : (advanced s c d).tgTap = s.tgTap := rfl

@[simp] theorem advanced_tgTwist (s : State) (c d : Word) : (advanced s c d).tgTwist = s.tgTwist := rfl

@[simp] theorem advanced_tgPhase (s : State) (c d : Word) : (advanced s c d).tgPhase = s.tgPhase := rfl

@[simp] theorem advanced_tgLdptr (s : State) (c d : Word) : (advanced s c d).tgLdptr = s.tgLdptr := rfl

@[simp] theorem advanced_ifBusy (s : State) (c d : Word) : (advanced s c d).ifBusy = s.ifBusy := rfl

@[simp] theorem advanced_rspValid (s : State) (c d : Word) : (advanced s c d).rspValid = s.rspValid := rfl

@[simp] theorem advanced_rspBuf (s : State) (c d : Word) : (advanced s c d).rspBuf = s.rspBuf := rfl

@[simp] theorem advanced_inputs (s : State) (c d : Word) : (advanced s c d).inputs = s.inputs := rfl

@[simp] theorem advanced_heldCmd (s : State) (c d : Word) : (advanced s c d).heldCmd = s.heldCmd := rfl

@[simp] theorem advanced_taken (s : State) (c d : Word) : (advanced s c d).taken = s.taken := rfl

theorem exec_tgAdvance_next_iff :
    exec .tgAdvance s = .next t ↔
      (s.tgPhase ≠ phaseReady ∧ t = s.raise .errUninit) ∨
      (s.tgPhase = phaseReady ∧ s.tgCur.toNat < s.cfg.tgN ∧ ∃ current src,
        s.tgs.read? s.tgCur.toNat = some current ∧ s.tgs.read? (tgSrcIndex s) = some src ∧
        t = (advanced s current src).respond .ok 0) := by
  show execTgAdvance s = .next t ↔ _
  unfold execTgAdvance
  split <;> rename_i h
  · simp [h, eq_comm]
  · have h' : s.tgPhase = phaseReady := by simpa using h
    simp only [finish_next_iff, bind_ok_iff, tgAdvanceFn_ok_iff, Except.ok.injEq]
    constructor
    · rintro ⟨s1, ⟨current, src, hc, h1, h2, rfl⟩, rfl⟩
      exact .inr ⟨h', hc, current, src, h1, h2, rfl⟩
    · rintro (⟨hn, -⟩ | ⟨-, hc, current, src, h1, h2, rfl⟩)
      · exact absurd h' hn
      · exact ⟨_, ⟨current, src, hc, h1, h2, rfl⟩, rfl⟩

theorem exec_tgNext_next_iff :
    exec .tgNext s = .next t ↔
      (s.tgPhase ≠ phaseReady ∧ t = s.raise .errUninit) ∨
      (s.tgPhase = phaseReady ∧ s.tgCur.toNat < s.cfg.tgN ∧ ∃ current src,
        s.tgs.read? s.tgCur.toNat = some current ∧ s.tgs.read? (tgSrcIndex s) = some src ∧
        t = (advanced s current src).respond .ok (truncTG s.cfg current)) := by
  show execTgNext s = .next t ↔ _
  unfold execTgNext
  split <;> rename_i h
  · simp [h, eq_comm]
  · have h' : s.tgPhase = phaseReady := by simpa using h
    simp only [finish_next_iff, bind_ok_iff, tgRead_ok_iff, tgAdvanceFn_ok_iff, Except.ok.injEq, zextTG_eq_truncTG]
    constructor
    · rintro ⟨v, ⟨-, hv⟩, s1, ⟨current, src, hc, h1, h2, rfl⟩, rfl⟩
      obtain rfl : v = current := Option.some.inj (hv.symm.trans h1)
      exact .inr ⟨h', hc, v, src, h1, h2, rfl⟩
    · rintro (⟨hn, -⟩ | ⟨-, hc, current, src, h1, h2, rfl⟩)
      · exact absurd h' hn
      · exact ⟨current, ⟨hc, h1⟩, _, ⟨current, src, hc, h1, h2, rfl⟩, rfl⟩

theorem exec_tgRdword_next_iff {idx : Index} :
    exec (.tgRdword idx) s = .next t ↔
      (s.cfg.tgN ≤ idx.toNat ∧ t = s.raise .errRange) ∨
      (idx.toNat < s.cfg.tgN ∧ s.tgPhase ≠ phaseReady ∧ t = s.raise .errUninit) ∨
      (idx.toNat < s.cfg.tgN ∧ s.tgPhase = phaseReady ∧ ∃ w, s.tgs.read? idx.toNat = some w ∧
        t = s.respond .ok (truncTG s.cfg w)) := by
  show execTgRdword idx s = .next t ↔ _
  unfold execTgRdword
  split <;> rename_i h
  · have : ¬ idx.toNat < s.cfg.tgN := by omega
    simp [h, this, eq_comm]
  · have h' : idx.toNat < s.cfg.tgN := by omega
    split <;> rename_i h2
    · simp [h, h', h2, eq_comm]
    · have h2' : s.tgPhase = phaseReady := by simpa using h2
      simp only [finish_next_iff, bind_ok_iff, tgRead_ok_iff, Except.ok.injEq, zextTG_eq_truncTG, h, h', h2',
        false_and, ne_eq, not_true_eq_false, and_false, true_and, false_or, eq_comm (a := t)]

theorem exec_rdreg_next_iff {regno : Index} :
    exec (.rdreg regno) s = .next t ↔
      (∃ v, readReg s regno = some v ∧ t = s.respond .ok v) ∨
      (readReg s regno = none ∧ t = s.raise .errRange) := by
  rw [exec_rdreg]
  cases readReg s regno <;> simp [eq_comm]

end Sys2Proof.Machine
end

