-- ==== Sys2Proof/Laws/PerInstr.lean ====
section
/-!
SUPPORT. What holds of every command as a term, said per constructor: its fields pass the check of a command word, and its
word has the opcode of 30_encoding.md R69, no reserved bit (R74) and 0 in every field that R70 leaves unused.
-/

namespace Sys2Proof.Laws.LegalWord

/-- The opcode of a command (R69). -/
def opcode : Instr → Nat
  | .nop => 0x0
  | .mtSeed _ => 0x1
  | .mtExtract => 0x2
  | .mtRdword _ => 0x3
  | .tgBegin _ _ => 0x4
  | .tgPush _ => 0x5
  | .tgOutput => 0x6
  | .tgAdvance => 0x7
  | .tgNext => 0x8
  | .tgRdword _ => 0x9
  | .rdreg _ => 0xA

/-- The word of the command is legal and carries the command's opcode. -/
def Statement (i : Instr) : Prop :=
  i.wellFormed = true ∧ (fieldsOf (encode i)).wellFormed = true ∧ ((encode i).extractLsb' 80 4).toNat = opcode i ∧
    (encode i).extractLsb' 84 12 = 0

/-- The statement from the command's fields alone. -/
theorem of_fields {i : Instr} (h1 : i.fields.wellFormed = true) (h2 : i.fields.op.toNat = opcode i)
    (h3 : i.fields.rsvd = 0) : Statement i := by
  have hf : fieldsOf (encode i) = i.fields := fieldsOf_packFields _
  refine ⟨h1, by rw [hf]; exact h1, ?_, ?_⟩
  · rw [show (encode i).extractLsb' 80 4 = (fieldsOf (encode i)).op from rfl, hf, h2]
  · rw [show (encode i).extractLsb' 84 12 = (fieldsOf (encode i)).rsvd from rfl, hf, h3]

theorem nop : Statement .nop := of_fields rfl rfl rfl

theorem mtSeed (seed : Word) : Statement (.mtSeed seed) := of_fields rfl rfl rfl

theorem mtExtract : Statement .mtExtract := of_fields rfl rfl rfl

theorem mtRdword (idx : Index) : Statement (.mtRdword idx) := of_fields rfl rfl rfl

theorem tgBegin (tap : Index) (twist : Word) : Statement (.tgBegin tap twist) := of_fields rfl rfl rfl

theorem tgPush (word : Word) : Statement (.tgPush word) := of_fields rfl rfl rfl

theorem tgOutput : Statement .tgOutput := of_fields rfl rfl rfl

theorem tgAdvance : Statement .tgAdvance := of_fields rfl rfl rfl

theorem tgNext : Statement .tgNext := of_fields rfl rfl rfl

theorem tgRdword (idx : Index) : Statement (.tgRdword idx) := of_fields rfl rfl rfl

theorem rdreg (regno : Index) : Statement (.rdreg regno) := of_fields rfl rfl rfl

end Sys2Proof.Laws.LegalWord
end

