-- ==== Sys2Proof/Laws/Port.lean ====
section
/-!
SUPPORT. One lemma that says all a step can do (30_encoding.md R67, 70_reset_and_hazards.md R180, R186), and the small
lemmas of the port's operations.
-/

namespace Sys2Proof.Machine

variable {s t : State}

theorem mapNext_next_iff {f : State → State} {o : Host.Outcome State Fault Refusal} :
    mapNext f o = .next t ↔ ∃ u, o = .next u ∧ t = f u := by
  cases o <;> simp [mapNext, eq_comm]

@[simp] theorem mapNext_next (f : State → State) (u : State) : mapNext f (.next u) = .next (f u) := rfl

/-- The interface's and the host's part of the state replaced. -/
def State.withPort (s : State) (b v : Bool) (ps : List PortIn) (h : Option CmdWord) (rs : List RspWord) : State :=
  { s with ifBusy := b, rspValid := v, inputs := ps, heldCmd := h, taken := rs }

/-- No command reads or writes the interface's part of the state but `RSP_BUF`. -/
theorem exec_next_withPort {i : Instr} {s t : State} (h : exec i s = .next t) (b v : Bool) (ps : List PortIn)
    (hc : Option CmdWord) (rs : List RspWord) :
    exec i (s.withPort b v ps hc rs) = .next (t.withPort b v ps hc rs) := by
  cases i with
  | nop =>
    cases h
    rfl
  | mtSeed seed =>
    cases h
    rfl
  | mtExtract =>
    rw [exec_mtExtract_next_iff] at h ⊢
    rcases h with ⟨h1, rfl⟩ | ⟨h1, w, h2, rfl⟩ | ⟨h1, m, w, h2, h3, rfl⟩
    · exact .inl ⟨h1, rfl⟩
    · exact .inr (.inl ⟨h1, w, h2, rfl⟩)
    · exact .inr (.inr ⟨h1, m, w, h2, h3, rfl⟩)
  | mtRdword idx =>
    rw [exec_mtRdword_next_iff] at h ⊢
    rcases h with ⟨h1, rfl⟩ | ⟨h1, h2, rfl⟩ | ⟨h1, h2, w, h3, rfl⟩
    · exact .inl ⟨h1, rfl⟩
    · exact .inr (.inl ⟨h1, h2, rfl⟩)
    · exact .inr (.inr ⟨h1, h2, w, h3, rfl⟩)
  | tgBegin tap twist =>
    cases h
    rfl
  | tgPush word =>
    rw [exec_tgPush_next_iff] at h ⊢
    rcases h with ⟨h1, rfl⟩ | ⟨h1, h2, rfl⟩
    · exact .inl ⟨h1, rfl⟩
    · exact .inr ⟨h1, h2, rfl⟩
  | tgOutput =>
    rw [exec_tgOutput_next_iff] at h ⊢
    rcases h with ⟨h1, rfl⟩ | ⟨h1, h2, w, h3, rfl⟩
    · exact .inl ⟨h1, rfl⟩
    · exact .inr ⟨h1, h2, w, h3, rfl⟩
  | tgAdvance =>
    rw [exec_tgAdvance_next_iff] at h ⊢
    rcases h with ⟨h1, rfl⟩ | ⟨h1, h2, current, src, h3, h4, rfl⟩
    · exact .inl ⟨h1, rfl⟩
    · exact .inr ⟨h1, h2, current, src, h3, h4, rfl⟩
  | tgNext =>
    rw [exec_tgNext_next_iff] at h ⊢
    rcases h with ⟨h1, rfl⟩ | ⟨h1, h2, current, src, h3, h4, rfl⟩
    · exact .inl ⟨h1, rfl⟩
    · exact .inr ⟨h1, h2, current, src, h3, h4, rfl⟩
  | tgRdword idx =>
    rw [exec_tgRdword_next_iff] at h ⊢
    rcases h with ⟨h1, rfl⟩ | ⟨h1, h2, rfl⟩ | ⟨h1, h2, w, h3, rfl⟩
    · exact .inl ⟨h1, rfl⟩
    · exact .inr (.inl ⟨h1, h2, rfl⟩)
    · exact .inr (.inr ⟨h1, h2, w, h3, rfl⟩)
  | rdreg regno =>
    rw [exec_rdreg_next_iff] at h ⊢
    rcases h with ⟨v, h1, rfl⟩ | ⟨h1, rfl⟩
    · exact .inl ⟨v, h1, rfl⟩
    · exact .inr ⟨h1, rfl⟩

theorem acceptCommand_ok {w : CmdWord} {i : Instr} (h : decode w = .ok i) :
    acceptCommand w s = mapNext State.beginBusy (exec i s) := by
  unfold acceptCommand
  rw [h]

theorem acceptCommand_error {w : CmdWord} {e : Illegal} (h : decode w = .error e) :
    acceptCommand w s = .next (s.raise .errIllegal).beginBusy := by
  unfold acceptCommand
  rw [h]

theorem acceptCommand_next_iff {w : CmdWord} :
    acceptCommand w s = .next t ↔
      (∃ i u, decode w = .ok i ∧ exec i s = .next u ∧ t = u.beginBusy) ∨
      (∃ e, decode w = .error e ∧ t = (s.raise .errIllegal).beginBusy) := by
  cases h : decode w with
  | ok i =>
    rw [acceptCommand_ok h, mapNext_next_iff]
    simp
  | error e =>
    rw [acceptCommand_error h]
    simp [eq_comm]

/-- The steps that answer a next state, one case each: a reset edge, a command accepted, a response presented, a response
taken, and no event. -/
theorem step_next_iff :
    step s = .next t ↔
      (s.portIn.rst = true ∧ t = s.useInput.resetEdge) ∨
      (s.portIn.rst = false ∧ hostSteady s.portIn s = true ∧
        ((s.ifBusy = false ∧ s.portIn.cmdValid = true ∧ acceptCommand s.portIn.cmdWord s.useInput = .next t) ∨
         (s.ifBusy = true ∧ s.rspValid = false ∧ t = s.useInput.present) ∨
         (s.ifBusy = true ∧ s.rspValid = true ∧ s.portIn.rspReady = true ∧ t = s.useInput.takeResponse) ∨
         (s.ifBusy = true ∧ s.rspValid = true ∧ s.portIn.rspReady = false ∧ t = s.useInput) ∨
         (s.ifBusy = false ∧ s.portIn.cmdValid = false ∧ t = s.useInput))) := by
  unfold step hostStep portStep
  cases hr : s.portIn.rst <;> cases hs : hostSteady s.portIn s <;> cases hb : s.ifBusy <;>
    cases hv : s.rspValid <;> cases hy : s.portIn.rspReady <;> cases hc : s.portIn.cmdValid <;>
    simp [hb, hv, eq_comm]

/-- The one stop that a step adds to a command's own: the host's broken duty, with no reset (R67, R186). -/
theorem step_unsteady (hr : s.portIn.rst = false) (hs : hostSteady s.portIn s = false) :
    step s = .fault .cmdWordChanged := by
  unfold step hostStep
  simp [hr, hs]

/-- A run of one step more, for any machine behind the host's interface. -/
theorem run_succ_of_step {M : Host.Core} {k : Nat} {a b : M.State} (h : M.step a = .next b) :
    M.run (k + 1) a = M.run k b := by
  show (match M.step a with
    | .next s' => M.run k s'
    | .fault r => .fault r
    | .refused r => .refused r) = _
  rw [h]

/-- A run of the block whose first step answers a next state. -/
theorem core_run_succ {k : Nat} (h : step s = .next t) :
    Host.Core.run Sys2Proof.core (k + 1) s = Host.Core.run Sys2Proof.core k t :=
  run_succ_of_step (M := Sys2Proof.core) h

end Sys2Proof.Machine
end

