-- ==== Sys2Proof/Laws/Trace.lean ====
section
/-!
SUPPORT. Sequences of commands (00_scope.md R17, 20_memory.md R55): the first command and the rest, one part and the rest,
and the same for sequences of command words.
-/

namespace Sys2Proof.Machine

theorem execTrace_cons_next_iff {i : Instr} {is : List Instr} {s t : State} {rs : List RspWord} :
    execTrace (i :: is) s = .next (rs, t) ↔
      ∃ u rs', exec i s = .next u ∧ execTrace is u = .next (rs', t) ∧ rs = u.rspBuf :: rs' := by
  rw [execTrace]
  cases h : exec i s with
  | next u =>
    cases h2 : execTrace is u with
    | next p =>
      obtain ⟨a, b⟩ := p
      simp [h2, eq_comm, and_comm]
    | fault f => simp [h2]
    | refused r => simp [h2]
  | fault f => simp
  | refused r => simp

theorem execTrace_append_next_iff {is js : List Instr} {s t : State} {rs : List RspWord} :
    execTrace (is ++ js) s = .next (rs, t) ↔
      ∃ u r1 r2, execTrace is s = .next (r1, u) ∧ execTrace js u = .next (r2, t) ∧ rs = r1 ++ r2 := by
  induction is generalizing s t rs with
  | nil => simp [execTrace]
  | cons i is ih =>
    rw [List.cons_append, execTrace_cons_next_iff]
    constructor
    · rintro ⟨u, rs', h1, h2, rfl⟩
      obtain ⟨u', r1, r2, a, b, rfl⟩ := ih.1 h2
      exact ⟨u', _, r2, execTrace_cons_next_iff.2 ⟨u, r1, h1, a, rfl⟩, b, rfl⟩
    · rintro ⟨u, r1, r2, h1, h2, rfl⟩
      obtain ⟨u', rs', a, b, rfl⟩ := execTrace_cons_next_iff.1 h1
      exact ⟨u', _, a, ih.2 ⟨u, _, _, b, h2, rfl⟩, rfl⟩

theorem wordTrace_cons_next_iff {w : CmdWord} {ws : List CmdWord} {s t : State} {rs : List RspWord} :
    wordTrace (w :: ws) s = .next (rs, t) ↔
      ∃ u rs', execWord w s = .next u ∧ wordTrace ws u = .next (rs', t) ∧ rs = u.rspBuf :: rs' := by
  rw [wordTrace]
  cases h : execWord w s with
  | next u =>
    cases h2 : wordTrace ws u with
    | next p =>
      obtain ⟨a, b⟩ := p
      simp [h2, eq_comm, and_comm]
    | fault f => simp [h2]
    | refused r => simp [h2]
  | fault f => simp
  | refused r => simp

/-- A seeded MT engine extracts, and stays seeded (R42, R96). -/
theorem exec_mtExtract_seeded {s : State} (h : s.mtSeeded) : ∃ t, exec .mtExtract s = .next t ∧ t.mtSeeded := by
  obtain ⟨hc, hf⟩ := h
  rcases Nat.lt_or_eq_of_le hc with hlt | heq
  · obtain ⟨w, hw⟩ := hf s.mtCur.toNat (by omega)
    refine ⟨_, exec_mtExtract_next_iff.2 (.inr (.inl ⟨hlt, w, hw, rfl⟩)), ?_, hf⟩
    have h1 : (1 : BitVec 9).toNat = 1 := rfl
    simp only [State.respond_mtCur, State.withMtCur_mtCur, BitVec.toNat_add, h1]
    omega
  · obtain ⟨m, hm⟩ := mtTwistFn_full (Memory.full_mono hf (k := 312) (by omega))
    have hf' := mtTwistFn_keeps_full hm hf
    obtain ⟨w, hw⟩ := hf' 0 (by omega)
    exact ⟨_, exec_mtExtract_next_iff.2 (.inr (.inr ⟨heq, m, w, hm, hw, rfl⟩)), by simp, hf'⟩

/-- Any number of extractions of a seeded MT engine goes through. -/
theorem execTrace_mtExtract {s : State} (h : s.mtSeeded) (k : Nat) :
    ∃ rs t, execTrace (List.replicate k .mtExtract) s = .next (rs, t) ∧ t.mtSeeded := by
  induction k generalizing s with
  | zero => exact ⟨[], s, rfl, h⟩
  | succ k ih =>
    obtain ⟨u, hu, hs⟩ := exec_mtExtract_seeded h
    obtain ⟨rs, t, ht, hts⟩ := ih hs
    exact ⟨_, t, execTrace_cons_next_iff.2 ⟨u, rs, hu, ht, rfl⟩, hts⟩

/-- Accepting a word is its command's effect with the response marked outstanding (R67, R68). -/
theorem acceptCommand_eq_execWord {w : CmdWord} {s : State} :
    acceptCommand w s = mapNext State.beginBusy (execWord w s) := by
  unfold acceptCommand execWord
  cases decode w <;> rfl

end Sys2Proof.Machine
end

