-- ==== Sys2Proof/Tests/Slice0.lean ====
section
/-!
SUPPORT. Tests of the model on values from spec/ (95_test_vectors.md unless a test says otherwise), the smoke tests of the
well-formedness checks, and a witness for the hypotheses of each statement of Certificates/Slice0/Obligations.lean.
-/

namespace Sys2Proof.Tests

open Sys2Proof.Machine

/-! ## Decoding (95_test_vectors.md 2.1; 30_encoding.md R65, R69) -/

theorem test_decode_nop : decode 0x000000000000000000000000#96 = .ok .nop := by decide

theorem test_decode_mtSeed : decode 0x0001000000000000088CB6B9#96 = .ok (.mtSeed 143439545) := by decide

theorem test_decode_mtExtract : decode 0x000200000000000000000000#96 = .ok .mtExtract := by decide

theorem test_decode_mtRdword : decode 0x000300020000000000000000#96 = .ok (.mtRdword 2) := by decide

theorem test_decode_tgBegin : decode 0x0004000B000000000001A875#96 = .ok (.tgBegin 11 0x1A875) := by decide

theorem test_decode_tgPush : decode 0x000500000000000000009E37#96 = .ok (.tgPush 0x9E37) := by decide

theorem test_decode_tgOutput : decode 0x000600000000000000000000#96 = .ok .tgOutput := by decide

theorem test_decode_tgAdvance : decode 0x000700000000000000000000#96 = .ok .tgAdvance := by decide

theorem test_decode_tgNext : decode 0x000800000000000000000000#96 = .ok .tgNext := by decide

theorem test_decode_tgRdword : decode 0x000900190000000000000000#96 = .ok (.tgRdword 25) := by decide

theorem test_decode_rdreg : decode 0x000A00020000000000000000#96 = .ok (.rdreg 2) := by decide

theorem test_decode_illegal :
    decode 0x000F_FFFF_FFFFFFFFFFFFFFFF#96 = .error .opReserved ∧
    decode 0x0005_0001_0000000000000000#96 = .error .idxNonzero ∧
    decode 0x000A_0005_0000000000000001#96 = .error .dataNonzero ∧
    decode 0x8004_0000_0000000000000000#96 = .error .rsvdNonzero := by decide

theorem test_decodeTableWord :
    decodeTableWord 96 0x0003_0154_0000000000000000 = some (.mtRdword 340) ∧
    decodeTableWord 96 0x000B_0000_0000000000000000 = none := by decide

/-! ## The well-formedness checks refuse ill-formed terms -/

theorem test_wf_rsvd : Fields.wellFormed { rsvd := 1, op := 0, idx := 0, data := 0 } = false := by decide

theorem test_wf_op : Fields.wellFormed { rsvd := 0, op := 0xB, idx := 0, data := 0 } = false := by decide

theorem test_wf_idx : Fields.wellFormed { rsvd := 0, op := 2, idx := 1, data := 0 } = false := by decide

theorem test_wf_data : Fields.wellFormed { rsvd := 0, op := 3, idx := 0, data := 1 } = false := by decide

theorem test_wf_line_idx : Line.wellFormed Config.default (.mtRdword 65536) = false := by decide

theorem test_wf_line_data : Line.wellFormed Config.default (.mtSeed (2 ^ 64)) = false := by decide

theorem test_wf_line_begin : Line.wellFormed Config.default (.tgBegin 65536 0) = false := by decide

theorem test_wf_line_load : Line.wellFormed Config.default (.tgLoad 11 0xA875 [1, 2, 3]) = false := by decide

theorem test_wf_line_word : Line.wellFormed Config.default (.rawWord (2 ^ 96)) = false := by decide

theorem test_config_refused :
    Config.mk? 0 16 = none ∧ Config.mk? 25 0 = none ∧ Config.mk? 65536 16 = none ∧ Config.mk? 25 65 = none ∧
      (Config.mk? 65535 64).isSome = true := by decide

/-! ## Small states -/

/-- `TG_N` = 4, `TG_W` = 16: the parameters of V-TG-4 and P4. -/
def cfg4 : Config := { tgN := 4, tgW := 16 }

/-- The post-reset state of that instance. -/
def fresh4 : State := State.resetOf cfg4

/-- P4 after three of its four pushes. -/
def loading4 : State :=
  { fresh4 with tgTap := 1, tgTwist := 0xA875, tgPhase := 1, tgLdptr := 3, tgs := [(0, 1), (1, 2), (2, 0x8000)] }

/-- V-TG-4 loaded. -/
def ready4 : State :=
  { fresh4 with
    tgTap := 1, tgTwist := 0xA875, tgPhase := 2, tgLdptr := 4, tgs := [(0, 1), (1, 2), (2, 0x8000), (3, 0xFFFF)] }

/-- V-TG-4 after row 3 of its table: the cursor at the last word. -/
def last4 : State := { ready4 with tgCur := 3, tgs := [(0, 0xA877), (1, 0x8001), (2, 0xBFFF), (3, 0xFFFF)] }

/-- V-TG-N1: one word. -/
def ready1 : State :=
  { State.resetOf { tgN := 1, tgW := 16 } with
    tgTap := 0, tgTwist := 0xA875, tgPhase := 2, tgLdptr := 1, tgs := [(0, 3)] }

/-- V-TG-ZERO. -/
def zero3 : State :=
  { State.resetOf { tgN := 3, tgW := 16 } with
    tgTap := 2, tgTwist := 0xA875, tgPhase := 2, tgLdptr := 3, tgs := [(0, 0), (1, 0), (2, 0)] }

/-- V-TG-W64, first word pending. -/
def wide2 : State :=
  { State.resetOf { tgN := 2, tgW := 64 } with
    tgTap := 1, tgTwist := 0xB5026F5AA96619E9, tgPhase := 2, tgLdptr := 2,
    tgs := [(0, 0xFFFFFFFFFFFFFFFF), (1, 1)] }

/-- An MT engine with its cursor at `c` and only the slots of `m`. -/
def mtAt (c : BitVec 9) (m : Memory) : State := { fresh4 with mtCur := c, mtw := m }

/-- Both engines constructed. -/
def both : State := { ready4 with mtCur := 312, mtw := mtSeedFn 5489 }

/-- The next state, if there is one. -/
def nextOf (o : Host.Outcome State Fault Refusal) : Option State :=
  match o with
  | .next s => some s
  | .fault _ => none
  | .refused _ => none

/-- The response word after a command. -/
def rspOf (i : Instr) (s : State) : Option RspWord := (nextOf (exec i s)).map State.rspBuf

/-! ## Control -/

theorem test_nop : nextOf (exec .nop fresh4) = some { fresh4 with rspBuf := 0 } := by decide

/-- 2.9: `PARAM` with `TG_N` = 4, `TG_W` = 16, and the status registers. -/
theorem test_rdreg :
    rspOf (.rdreg 0) fresh4 = some (packResponse .ok 0x0010000401540138) ∧
    rspOf (.rdreg 1) fresh4 = some (packResponse .ok 0x1FF) ∧
    rspOf (.rdreg 2) loading4 = some (packResponse .ok 0x0000000100030000) ∧
    rspOf (.rdreg 3) ready4 = some (packResponse .ok 1) ∧ rspOf (.rdreg 4) ready4 = some (packResponse .ok 0xA875) := by
  decide

theorem test_rdreg_range : rspOf (.rdreg 5) ready4 = some 0x03_0000000000000000#72 := by decide

/-! ## MT engine -/

/-- V-MT-SEED-1. -/
theorem test_mtSeed :
    (nextOf (exec (.mtSeed 143439545) ready4)).map (fun t => (t.mtw.read? 1, t.mtw.read? 2, t.mtCur, t.rspBuf)) =
      some (some 0x09FC36E9950EE586, some 0x448FC65EF679D290, 312, 0) := by decide +kernel

/-- V-MT-SEED-MAX: the seed whose two top bits are 1. -/
theorem test_mtSeedFn_max :
    ((mtSeedFn 0xFFFFFFFFFFFFFFFF).read? 1, (mtSeedFn 0xFFFFFFFFFFFFFFFF).read? 2) =
      (some 0x9EB82F4ACDAA034D, some 0x677779FFDF81C5E5) := by decide +kernel

/-- V-MT-SEED-0, the last slot. -/
theorem test_mtSeedFn_last : (mtSeedFn 0).read? 339 = some 0x6BE560F70F257A43 ∧ (mtSeedFn 0).read? 340 = none := by
  decide +kernel

/-- 2.3. -/
theorem test_temper :
    mtTemperFn 0 = 0 ∧ mtTemperFn 1 = 0x0040002000020801 ∧ mtTemperFn 0xFFFFFFFFFFFFFFFF = 0x7BFEEEEFEFA1D577 ∧
    mtTemperFn 0x8000000000000000 = 0x8000000400100000 ∧ mtTemperFn 0x0123456789ABCDEF = 0x2254DA7001198660 := by decide

/-- The slot that a twist step leaves. -/
def stepped (m : Memory) (i : Nat) : Option Word :=
  match twistStep m i with
  | .ok m' => m'.read? i
  | .error _ => none

/-- V-MT-TWIST-1, steps 0, 156 and 311. -/
theorem test_twistStep :
    stepped [(0, 0x088CB6B9), (1, 0x09FC36E9950EE586), (156, 0x2A9DC24A9ACDE16B)] 0 = some 0x2A9DC24A904A93A8 ∧
    stepped [(0, 0x2A9DC24A904A93A8), (156, 0x2A9DC24A9ACDE16B), (157, 0x8864FE78504BB56C)] 156 =
      some 0x3FD3236FF86F491E ∧
    stepped [(0, 0x2A9DC24A904A93A8), (155, 0x31FEF173BEB25759), (311, 0xA112269D1AB2BE05)] 311 =
      some 0x6177E23D36971E8D := by decide

/-- By hand from R91: an odd `x` = 1 gives `xA` = 0 xor `MT_A`. -/
theorem test_twistStep_odd : stepped [(0, 0), (1, 1), (156, 0)] 0 = some 0xB5026F5AA96619E9 := by decide

/-- R96: slot 311 is tempered without a twist and the cursor reaches the sentinel; the word is 2.3's. -/
theorem test_mtExtract_311 :
    (nextOf (exec .mtExtract (mtAt 311 [(311, 0x0123456789ABCDEF)]))).map (fun t => (t.mtCur, t.rspBuf)) =
      some (312, packResponse .ok 0x2254DA7001198660) := by decide

/-- P2, row 1; 93_implementation_defined.md U8. -/
theorem test_mtExtract_unseeded :
    rspOf .mtExtract fresh4 = some 0x01_0000000000000000#72 ∧
    rspOf .mtExtract (mtAt 313 []) = some 0x01_0000000000000000#72 := by decide

/-- P2: 340 is out of range before it is unseeded; V-MT-SEED-0's slot 2. -/
theorem test_mtRdword :
    rspOf (.mtRdword 340) fresh4 = some 0x03_0000000000000000#72 ∧
    rspOf (.mtRdword 339) fresh4 = some 0x01_0000000000000000#72 ∧
    rspOf (.mtRdword 2) (mtAt 312 (mtSeedFn 0)) = some (packResponse .ok 0x5851F42D4C957F2F) := by decide +kernel

/-! ## TG engine -/

/-- V-TG-TRUNC, on a READY engine: the load starts again. -/
theorem test_tgBegin :
    (nextOf (exec (.tgBegin 11 0x1A875) ready4)).map
        (fun t => (t.tgTap, t.tgTwist, t.tgCur, t.tgLdptr, t.tgPhase, t.tgs == ready4.tgs)) =
      some (11, 0xA875, 0, 0, 1, true) := by decide

/-- P4, row 9: the last push is truncated and ends the load. -/
theorem test_tgPush_last :
    (nextOf (exec (.tgPush 0x1FFFF) loading4)).map (fun t => (t.tgs, t.tgLdptr, t.tgPhase, t.rspBuf)) =
      some ([(0, 1), (1, 2), (2, 0x8000), (3, 0xFFFF)], 4, 2, 0) := by decide

/-- P4, rows 2 and 10; U9. -/
theorem test_tgPush_seq :
    rspOf (.tgPush 1) fresh4 = some 0x04_0000000000000000#72 ∧
    rspOf (.tgPush 5) ready4 = some 0x04_0000000000000000#72 ∧
    rspOf (.tgPush 5) { ready4 with tgPhase := 3 } = some 0x04_0000000000000000#72 := by decide

/-- P4, rows 4, 11 and 12. -/
theorem test_tgOutput :
    rspOf .tgOutput loading4 = some 0x01_0000000000000000#72 ∧
    nextOf (exec .tgOutput ready4) = some { ready4 with rspBuf := 1 } := by decide

/-- V-TG-4, row 1 (odd) and, with the cursor at the last word, row 4 (the wrap, and the new word 0 as the source). -/
theorem test_tgAdvance :
    nextOf (exec .tgAdvance ready4) =
      some { ready4 with tgs := [(0, 0xA877), (1, 2), (2, 0x8000), (3, 0xFFFF)], tgCur := 1, rspBuf := 0 } ∧
    nextOf (exec .tgAdvance last4) =
      some { last4 with tgs := [(0, 0xA877), (1, 0x8001), (2, 0xBFFF), (3, 0x7FFD)], tgCur := 0, rspBuf := 0 } := by
  decide

/-- V-TG-N1 and V-TG-TAP0: a tap ≡ 0 combines the word with itself. -/
theorem test_tgAdvance_self :
    (nextOf (exec .tgAdvance ready1)).map (fun t => (t.tgs, t.tgCur)) = some ([(0, 0xA877)], 0) ∧
    (nextOf (exec .tgAdvance { ready4 with tgTap := 4 })).map (fun t => t.tgs.read? 0) = some (some 0xA874) := by decide

/-- V-TG-4, row 3 (even): the word before it is regenerated is returned. -/
theorem test_tgNext :
    (nextOf (exec .tgNext { ready4 with tgCur := 2 })).map (fun t => (t.tgs.read? 2, t.tgCur, t.rspBuf)) =
      some (some 0xBFFF, 3, packResponse .ok 0x8000) := by decide

/-- V-TG-W64: the first word regenerated is the third output. -/
theorem test_tgNext_wide :
    (nextOf (exec .tgNext wide2)).map (fun t => (t.tgs.read? 0, t.rspBuf)) =
      some (some 0xCAFD90A55699E617, packResponse .ok 0xFFFFFFFFFFFFFFFF) := by decide

/-- P4, row 24, and the errors in their order. -/
theorem test_tgRdword :
    rspOf (.tgRdword 4) loading4 = some 0x03_0000000000000000#72 ∧
    rspOf (.tgRdword 0) loading4 = some 0x01_0000000000000000#72 ∧
    rspOf (.tgRdword 3) ready4 = some (packResponse .ok 0xFFFF) := by decide

/-! ## The port -/

/-- 2.1: a word placed for the next step runs there, from reset: `TG.PUSH` in EMPTY, and an illegal word. -/
theorem test_step_fetched :
    (nextOf (step (State.reset.withFetchWord 96 0x0005_0000_0000000000009E37))).map (fun t => (t.ifBusy, t.rspBuf)) =
      some (true, 0x04_0000000000000000#72) ∧
    (nextOf (step (State.reset.withFetchWord 96 0x0005_0001_0000000000000000))).map (fun t => (t.ifBusy, t.rspBuf)) =
      some (true, 0x02_0000000000000000#72) := by decide

/-- R67: presented, then taken; R180: a reset edge wins over both. -/
theorem test_step_response :
    (nextOf (step { ready4 with ifBusy := true, rspBuf := 7 })).map (fun t => (t.rspValid, t.taken)) =
      some (true, []) ∧
    (nextOf (step { ready4 with ifBusy := true, rspValid := true, rspBuf := 7, inputs := [PortIn.ready] })).map
      (fun t => (t.rspValid, t.ifBusy, t.taken)) = some (false, false, [7]) ∧
    (nextOf (step { ready4 with ifBusy := true, rspValid := true,
                                inputs := [{ PortIn.ready with rst := true }] })).map
      (fun t => (t.tgPhase, t.ifBusy, t.taken)) = some (0, false, []) := by decide

/-- R67, R186: the host changes the word it waits with; without a change the wait goes on. -/
theorem test_step_changed :
    nextOf (step { ready4 with ifBusy := true, heldCmd := some 5, inputs := [PortIn.offer 6] }) = none ∧
    (nextOf (step { ready4 with ifBusy := true, heldCmd := some 5, inputs := [PortIn.offer 5] })).map State.heldCmd =
      some (some 5) := by decide

/-! ## The assembler (P1, P4 and R80) -/

theorem test_assemble :
    assemble cfg4
      [.line (.mtSeed 143439545), .repeatBegin 2, .line .mtNext, .repeatEnd, .line (.rdregName .mtStatus),
       .line (.tgLoad 1 0xA875 [1, 2, 0x8000, 0x1FFFF])] =
      some [0x0001_0000_00000000088CB6B9, 0x0002_0000_0000000000000000, 0x0002_0000_0000000000000000,
        0x000A_0001_0000000000000000, 0x0004_0001_000000000000A875, 0x0005_0000_0000000000000001,
        0x0005_0000_0000000000000002, 0x0005_0000_0000000000008000, 0x0005_0000_000000000001FFFF] := by decide

theorem test_assemble_refused :
    assemble cfg4 [.repeatEnd] = none ∧ assemble cfg4 [.repeatBegin 2] = none ∧
    assemble cfg4 [.line (.tgRdword 65536)] = none := by decide

theorem test_literals :
    literal ['0', 'x', 'A', '8', '_', '7', '5'] = some 0xA875 ∧ literal [' ', '1', '1', ' '] = some 11 ∧
    literal ['x'] = none ∧ literal ['0', 'x'] = none := by decide

/-- The model's choices of notes/assumptions/12.md: an underscore anywhere after the base, and a short `.word`. -/
theorem test_literals_chosen :
    literal ['_', '5'] = some 5 ∧ literal ['1', '_', '_', '0', '_'] = some 10 ∧ literal ['0', 'x', '_', 'A'] = some 10 ∧
    literal ['_'] = none ∧ assemble cfg4 [.line (.rawWord 0xB)] = some [0xB] := by decide

/-! ## Witnesses: states and operands that meet the hypotheses of each statement, at the ends of their ranges -/

/-- The clauses on a word: each kind of ILLEGAL, and a legal word of each opcode. -/
theorem witness_DecoderFollowsTheOpcodeTable :
    fieldsOf 0x0010_0000_0000000000000000#96 = ⟨1, 0, 0, 0⟩ ∧
    fieldsOf 0x8004_0000_0000000000000000#96 = ⟨0x800, 4, 0, 0⟩ ∧
    fieldsOf 0x000B_0000_0000000000000000#96 = ⟨0, 0xB, 0, 0⟩ ∧
    fieldsOf 0x000F_FFFF_FFFFFFFFFFFFFFFF#96 = ⟨0, 0xF, 0xFFFF, 0xFFFFFFFFFFFFFFFF⟩ ∧
    fieldsOf 0x0001_0001_0000000000000000#96 = ⟨0, 1, 1, 0⟩ ∧
    fieldsOf 0x000A_0005_0000000000000001#96 = ⟨0, 0xA, 5, 1⟩ ∧
    (∀ n : BitVec 4, fieldsOf (packFields ⟨0, n, 0, 0⟩) = ⟨0, n, 0, 0⟩) := by decide

theorem witness_EncodeOfDecodeIsTheWord :
    decode 0x0004_000B_000000000000A875#96 = .ok (.tgBegin 11 0xA875) ∧
    decode 0x0004_FFFF_FFFFFFFFFFFFFFFF#96 = .ok (.tgBegin 0xFFFF 0xFFFFFFFFFFFFFFFF) := by decide

/-- The clauses on a word of the statements about one command: words of its opcode, legal and illegal. -/
theorem witness_opcode_words :
    (fieldsOf 0x0000_0001_0000000000000000#96).op = 0 ∧ (0x0000_0001_0000000000000000#96 ≠ 0) ∧
    fieldsOf 0x0001_0000_0000000000000000#96 = ⟨0, 1, 0, 0⟩ ∧ fieldsOf 0x0001_0001_0000000000000000#96 = ⟨0, 1, 1, 0⟩ ∧
    fieldsOf 0x0002_0000_0000000000000000#96 = ⟨0, 2, 0, 0⟩ ∧ fieldsOf 0x0002_0000_0000000000000001#96 = ⟨0, 2, 0, 1⟩ ∧
    fieldsOf 0x0003_0153_0000000000000000#96 = ⟨0, 3, 339, 0⟩ ∧ fieldsOf 0x0003_0000_0000000000000001#96 = ⟨0, 3, 0, 1⟩ ∧
    fieldsOf 0x0004_FFFF_0000000000000001#96 = ⟨0, 4, 0xFFFF, 1⟩ ∧ fieldsOf 0x0014_0000_0000000000000000#96 = ⟨1, 4, 0, 0⟩ ∧
    fieldsOf 0x0005_0000_0000000000000001#96 = ⟨0, 5, 0, 1⟩ ∧ fieldsOf 0x0005_0001_0000000000000000#96 = ⟨0, 5, 1, 0⟩ ∧
    fieldsOf 0x0006_0000_0000000000000000#96 = ⟨0, 6, 0, 0⟩ ∧ fieldsOf 0x0006_0001_0000000000000000#96 = ⟨0, 6, 1, 0⟩ ∧
    fieldsOf 0x0007_0000_0000000000000000#96 = ⟨0, 7, 0, 0⟩ ∧ fieldsOf 0x0007_0001_0000000000000000#96 = ⟨0, 7, 1, 0⟩ ∧
    fieldsOf 0x0008_0000_0000000000000000#96 = ⟨0, 8, 0, 0⟩ ∧ fieldsOf 0x0008_0001_0000000000000000#96 = ⟨0, 8, 1, 0⟩ ∧
    fieldsOf 0x0009_0018_0000000000000000#96 = ⟨0, 9, 24, 0⟩ ∧ fieldsOf 0x0009_0000_0000000000000001#96 = ⟨0, 9, 0, 1⟩ ∧
    fieldsOf 0x000A_0004_0000000000000000#96 = ⟨0, 0xA, 4, 0⟩ ∧ fieldsOf 0x001A_0000_0000000000000000#96 = ⟨1, 0xA, 0, 0⟩ :=
  by decide

theorem witness_RdregCommand :
    5 ≤ (5 : Index).toNat ∧ 5 ≤ (0xFFFF : Index).toNat ∧ (1 ≤ (mtAt 1 []).mtCur.toNat ∧ (mtAt 312 []).mtCur.toNat ≤ 312) ∧
    fresh4.mtCur.toNat = 511 := by decide

/-- Any seeded array has a word in each recurrence slot. -/
theorem witness_TwistReadsTheRightVersions :
    ∃ old : Nat → Word, ∀ k, k < 312 → (mtSeedFn 5489).read? k = some (old k) :=
  ⟨seedWordAt 0 5489, fun k hk => by rw [mtSeedFn_read?, if_pos (by omega)]⟩

/-- An array of zeros in slots 0 to 311. -/
def zeros312 : Memory := (List.range 312).map (fun i => (i, 0))

theorem witness_MtExtractCommand :
    312 < (mtAt 313 []).mtCur.toNat ∧ 312 < fresh4.mtCur.toNat ∧
    ((mtAt 311 [(311, 7)]).mtCur.toNat < 312 ∧ (mtAt 311 [(311, 7)]).mtw.read? 311 = some 7) ∧
    ((mtAt 0 [(0, 7)]).mtCur.toNat < 312 ∧ (mtAt 0 [(0, 7)]).mtw.read? 0 = some 7) ∧
    ((mtAt 312 zeros312).mtCur.toNat = 312 ∧ ∀ k, k < 312 → (mtAt 312 zeros312).mtw.read? k = some 0) := by
  decide +kernel

theorem witness_MtExtractCommand_full : both.mtCur.toNat = 312 ∧ both.mtw.full 312 :=
  ⟨rfl, Memory.full_mono (mtSeedFn_full 5489) (by omega)⟩

theorem witness_MtRdwordCommand :
    339 < (340 : Index).toNat ∧ 339 < (0xFFFF : Index).toNat ∧
    ((339 : Index).toNat ≤ 339 ∧ 312 < (mtAt 313 []).mtCur.toNat) ∧
    ((339 : Index).toNat ≤ 339 ∧ (mtAt 312 [(339, 7)]).mtCur.toNat ≤ 312 ∧
      (mtAt 312 [(339, 7)]).mtw.read? 339 = some 7) ∧
    ((0 : Index).toNat ≤ 339 ∧ (mtAt 1 [(0, 7)]).mtCur.toNat ≤ 312 ∧ (mtAt 1 [(0, 7)]).mtw.read? 0 = some 7) := by
  decide

/-- One extraction, with a command of another family before it. -/
theorem witness_MtExtractSchedule :
    ([Instr.tgOutput, Instr.mtExtract].filter Instr.isMt = List.replicate 1 Instr.mtExtract) ∧
    [Instr.tgOutput, Instr.mtExtract].getLast? = some .mtExtract ∧
    ∃ rs t, execTrace [.mtSeed 5489, .tgOutput, .mtExtract] ready4 = .next (rs, t) := by
  refine ⟨rfl, rfl, ?_⟩
  obtain ⟨t, ht, -⟩ := exec_mtExtract_seeded
    (s := (((ready4.withMtw (mtSeedFn 5489)).withMtCur 312).respond .ok 0).respond .ok (truncTG cfg4 1))
    ⟨by decide, mtSeedFn_full 5489⟩
  exact ⟨_, t, execTrace_cons_next_iff.2 ⟨_, _, rfl, execTrace_cons_next_iff.2 ⟨_, _, rfl,
    execTrace_cons_next_iff.2 ⟨t, [], ht, rfl, rfl⟩, rfl⟩, rfl⟩⟩

/-- The last extraction before the second twist, the second twist, and the third (R98). -/
theorem witness_MtExtractSchedule_twists (k : Nat) (hk : k = 312 ∨ k = 313 ∨ k = 625) :
    1 ≤ k ∧ (List.replicate k Instr.mtExtract).filter Instr.isMt = List.replicate k Instr.mtExtract ∧
    (List.replicate k Instr.mtExtract).getLast? = some .mtExtract ∧
    ∃ rs t, execTrace (.mtSeed 5489 :: List.replicate k .mtExtract) ready4 = .next (rs, t) := by
  have hm : Instr.mtExtract.isMt = true := rfl
  refine ⟨by omega, by simp [hm], by rw [List.getLast?_replicate, if_neg (by omega)], ?_⟩
  obtain ⟨rs, t, ht, -⟩ := execTrace_mtExtract
    (s := ((ready4.withMtw (mtSeedFn 5489)).withMtCur 312).respond .ok 0) ⟨by simp, mtSeedFn_full 5489⟩ k
  exact ⟨_, t, execTrace_cons_next_iff.2 ⟨_, rs, rfl, ht, rfl⟩⟩

/-- Two arrays that differ in a dead slot only. -/
theorem witness_DeadSlotsNeverInfluenceOutputs :
    (mtAt 311 [(311, 7)]).mtCur = (mtAt 311 [(311, 7), (312, 5)]).mtCur ∧
    (∀ k, k < 312 → (mtAt 311 [(311, 7)]).mtw.read? k = (mtAt 311 [(311, 7), (312, 5)]).mtw.read? k) ∧
    ∃ t, exec .mtExtract (mtAt 311 [(311, 7)]) = .next t := by
  refine ⟨rfl, by decide +kernel, ⟨_, rfl⟩⟩

theorem witness_SeedRestartsTheSequence :
    (∃ rs t, execTrace [.mtSeed 5489, .nop, .mtRdword 340] fresh4 = .next (rs, t)) ∧
    (∃ rs t, execTrace [.mtSeed 5489, .nop, .mtRdword 340] ready4 = .next (rs, t)) ∧
    (∀ i ∈ [Instr.mtRdword 340, Instr.mtExtract], i.isMt = true) := by
  refine ⟨⟨_, _, rfl⟩, ⟨_, _, rfl⟩, by decide⟩

theorem witness_EnginesAreIndependent :
    (∃ t, exec (.mtRdword 0) (mtAt 1 [(0, 7)]) = .next t) ∧ (Instr.mtRdword 0).isMt = true ∧
    (mtAt 1 [(0, 7)]).sameMt { ready4 with mtw := [(0, 7)], mtCur := 1 } ∧
    (∃ t, exec .tgNext ready4 = .next t) ∧ Instr.tgNext.isTg = true ∧
    ready4.sameTg { ready4 with mtw := [(0, 7)], mtCur := 1 } :=
  ⟨⟨_, rfl⟩, rfl, ⟨rfl, rfl⟩, ⟨_, rfl⟩, rfl, ⟨rfl, rfl, rfl, rfl, rfl, rfl, rfl⟩⟩

theorem witness_TgPushCommand :
    fresh4.tgPhase ≠ 1 ∧ ready4.tgPhase ≠ 1 ∧ (loading4.tgPhase = 1 ∧ loading4.tgLdptr.toNat < loading4.cfg.tgN) ∧
    ({ fresh4 with tgPhase := 1 }.tgPhase = 1 ∧ { fresh4 with tgPhase := 1 }.tgLdptr.toNat < fresh4.cfg.tgN) := by
  decide

/-- The READY clauses of the four TG reads and advances: the cursor at the first and at the last word. -/
theorem witness_tgReady_commands :
    fresh4.tgPhase ≠ 2 ∧ loading4.tgPhase ≠ 2 ∧
    (ready4.tgPhase = 2 ∧ ready4.tgCur.toNat < ready4.cfg.tgN ∧ ready4.tgs.read? ready4.tgCur.toNat = some 1 ∧
      ready4.tgs.read? ((ready4.tgCur.toNat + ready4.tgTap.toNat) % ready4.cfg.tgN) = some 2 ∧
      (1 : Word).toNat < 2 ^ ready4.cfg.tgW) ∧
    (last4.tgPhase = 2 ∧ last4.tgCur.toNat < last4.cfg.tgN ∧ last4.tgs.read? last4.tgCur.toNat = some 0xFFFF ∧
      last4.tgs.read? ((last4.tgCur.toNat + last4.tgTap.toNat) % last4.cfg.tgN) = some 0xA877 ∧
      (0xFFFF : Word).toNat < 2 ^ last4.cfg.tgW) := by decide

theorem witness_TgNextIsOutputThenAdvance :
    ∃ u v, exec .tgOutput ready4 = .next u ∧ exec .tgAdvance u = .next v := ⟨_, _, rfl, rfl⟩

theorem witness_TgRdwordCommand :
    ready4.cfg.tgN ≤ (4 : Index).toNat ∧ ready4.cfg.tgN ≤ (0xFFFF : Index).toNat ∧
    ((3 : Index).toNat < loading4.cfg.tgN ∧ loading4.tgPhase ≠ 2) ∧
    ((3 : Index).toNat < ready4.cfg.tgN ∧ ready4.tgPhase = 2 ∧ ready4.tgs.read? 3 = some 0xFFFF ∧
      (0xFFFF : Word).toNat < 2 ^ ready4.cfg.tgW) ∧
    ((0 : Index).toNat < ready4.cfg.tgN ∧ ready4.tgs.read? 0 = some 1) := by decide

/-- Also for LoadedWordsComeOutFirst: a vector of `TG_N` words; and two states whose arrays are canonical and in range. -/
theorem witness_ConstructionReplacesTheEngine :
    [(1 : Word), 2, 0x8000, 0x1FFFF].length = ready4.cfg.tgN ∧ fresh4.cfg = ready4.cfg ∧ ready4.tgs.wf ∧ fresh4.tgs.wf ∧
    ready4.tgs.below ready4.cfg.tgN ∧ fresh4.tgs.below ready4.cfg.tgN ∧ [(3 : Word)].length = ready1.cfg.tgN := by
  refine ⟨rfl, rfl, by decide, by decide, ?_, ?_, rfl⟩ <;> simp [Memory.below, ready4, fresh4, State.resetOf, cfg4]

theorem witness_OutputsRepeatUntilAnAdvance :
    (∃ s1 s2 s3 rs, exec .tgOutput ready4 = .next s1 ∧
      execTrace [.tgRdword 3, .nop, .mtExtract, .tgOutput, .rdreg 3] s1 = .next (rs, s2) ∧
      exec .tgOutput s2 = .next s3) ∧
    (∀ i ∈ [Instr.tgRdword 3, .nop, .mtExtract, .tgOutput, .rdreg 3], i.isTg = true →
      i = .tgOutput ∨ i = .tgRdword 3) ∧
    ready4.sameTg { ready4 with mtw := [(0, 7)], mtCur := 1 } ∧
    ∃ rs t, execTrace [.tgAdvance, .tgOutput] ready4 = .next (rs, t) :=
  ⟨⟨_, _, _, _, rfl, rfl, rfl⟩, by decide, ⟨rfl, rfl, rfl, rfl, rfl, rfl, rfl⟩, ⟨_, _, rfl⟩⟩

theorem witness_TgOutputsAreInRange :
    (∃ t, exec .tgOutput ready4 = .next t) ∧ (∃ t, exec .tgNext last4 = .next t) ∧
    ∃ t, exec (.tgRdword 3) ready4 = .next t := ⟨⟨_, rfl⟩, ⟨_, rfl⟩, ⟨_, rfl⟩⟩

theorem witness_TapZeroCombinesTheWordWithItself :
    ({ ready4 with tgTap := 4 }.tgPhase = 2 ∧ ready4.tgCur.toNat < ready4.cfg.tgN ∧
      ready4.tgs.read? ready4.tgCur.toNat = some 1 ∧ { ready4 with tgTap := 4 }.tgTap.toNat % ready4.cfg.tgN = 0) ∧
    (ready1.tgPhase = 2 ∧ ready1.tgCur.toNat < ready1.cfg.tgN ∧ ready1.tgs.read? ready1.tgCur.toNat = some 3 ∧
      ready1.cfg.tgN = 1) := by decide

theorem witness_ZeroTgStateStaysZero :
    zero3.tgPhase = 2 ∧ zero3.tgCur.toNat < zero3.cfg.tgN ∧ (∀ j, j < zero3.cfg.tgN → zero3.tgs.read? j = some 0) ∧
    (∀ i ∈ [Instr.tgOutput, .tgAdvance, .tgNext, .tgNext], i = .tgOutput ∨ i = .tgAdvance ∨ i = .tgNext) := by decide

theorem witness_TapActsModuloTheLength :
    (∃ t, exec .tgAdvance ready4 = .next t) ∧ Instr.tgAdvance.isTg = true ∧
    (5 : BitVec 16).toNat % ready4.cfg.tgN = ready4.tgTap.toNat % ready4.cfg.tgN ∧
    (65533 : BitVec 16).toNat % ready4.cfg.tgN = ready4.tgTap.toNat % ready4.cfg.tgN :=
  ⟨⟨_, rfl⟩, by decide⟩

/-- A command in error, and an illegal word. -/
theorem witness_ErrorsWriteNothing :
    (∃ t, exec (.mtRdword 340) fresh4 = .next t ∧ rspStatus t.rspBuf ≠ 0) ∧
    ∃ t, acceptCommand 0x000B_0000_0000000000000000 ready4 = .next t ∧ rspStatus t.rspBuf ≠ 0 :=
  ⟨⟨_, rfl, by decide⟩, ⟨_, rfl, by decide⟩⟩

/-- Each cause of an error, at the ends of its range. -/
theorem witness_ErrorCauses :
    ((rspOf .mtExtract fresh4).map rspStatus, (rspOf (.mtRdword 339) (mtAt 313 [])).map rspStatus,
      (rspOf .tgOutput loading4).map rspStatus, (rspOf .tgAdvance fresh4).map rspStatus,
      (rspOf .tgNext loading4).map rspStatus, (rspOf (.tgRdword 3) loading4).map rspStatus) =
      (some 1, some 1, some 1, some 1, some 1, some 1) ∧
    ((rspOf (.mtRdword 340) fresh4).map rspStatus, (rspOf (.tgRdword 4) fresh4).map rspStatus,
      (rspOf (.rdreg 5) fresh4).map rspStatus) = (some 3, some 3, some 3) ∧
    (rspOf (.tgPush 1) fresh4).map rspStatus = some 4 ∧ (rspOf (.rdreg 4) fresh4).map rspStatus = some 0 := by decide

theorem witness_ErrorPriority :
    (fieldsOf 0x000A_0005_0000000000000001).wellFormed = false ∧
    (decode 0x0003_0154_0000000000000000 = .ok (.mtRdword 340) ∧ 339 < (340 : Index).toNat) ∧
    (decode 0x0009_0019_0000000000000000 = .ok (.tgRdword 25) ∧ State.reset.cfg.tgN ≤ (25 : Index).toNat) := by decide

theorem witness_NoValueMeansDataZero :
    (∃ t, exec .nop ready4 = .next t) ∧ (∃ t, exec (.mtSeed 1) ready4 = .next t) ∧
    (∃ t, exec (.tgBegin 11 1) ready4 = .next t) ∧ (∃ t, exec (.tgPush 1) loading4 = .next t) ∧
    (∃ t, exec .tgAdvance ready4 = .next t) ∧
    (∃ t, exec (.rdreg 5) ready4 = .next t ∧ rspStatus t.rspBuf ≠ 0) ∧
    decode 0x0010_0000_0000000000000000 = .error .rsvdNonzero :=
  ⟨⟨_, rfl⟩, ⟨_, rfl⟩, ⟨_, rfl⟩, ⟨_, rfl⟩, ⟨_, rfl⟩, ⟨_, rfl, by decide⟩, by decide⟩

/-- Both engines constructed, one response outstanding and one taken: a state that meets the invariant. -/
def busyBoth : State :=
  { both with ifBusy := true, rspValid := true, rspBuf := packResponse .ok 7, taken := [packResponse .errSeq 0],
              inputs := [PortIn.ready] }

theorem witness_Inv : busyBoth.Inv where
  mtw_wf := mtSeedFn_wf 5489
  mtw_below := mtSeedFn_below 5489
  tgs_wf := by decide
  tgs_below := by simp [Memory.below, busyBoth, both, ready4, fresh4, State.resetOf, cfg4]
  mtCur_range := .inl ⟨by decide, by decide⟩
  mtw_full := fun _ => mtSeedFn_full 5489
  tgs_narrow := by simp [Memory.narrow, busyBoth, both, ready4, fresh4, State.resetOf, cfg4]
  tgTwist_narrow := by decide
  tgCur_lt := by decide
  tgPhase_legal := by decide
  tgLdptr_le := by decide
  loading_lt := by decide
  ready_ptr := by decide
  loading_full := fun h => absurd h (by decide)
  ready_full := fun _ i hi =>
    Option.ne_none_iff_exists'.1 ((by decide : ∀ i, i < 4 → ready4.tgs.read? i ≠ none) i hi)
  rspValid_busy := fun _ => rfl
  rspBuf_legal := fun _ => rspLegal_ok 7
  taken_legal := by
    intro r hr
    obtain rfl := List.mem_singleton.1 hr
    exact rspLegal_error .errSeq

/-- EveryStepKeepsTheInvariant, SteadyHostNeverStopsTheBlock and ParametersNeverChange. -/
theorem witness_step_of_Inv :
    busyBoth.Inv ∧ (∃ t, step busyBoth = .next t) ∧ hostSteady busyBoth.portIn busyBoth = true :=
  ⟨witness_Inv, ⟨_, rfl⟩, rfl⟩

theorem witness_MtCursorAfterAnyCommand :
    (1 ≤ (mtAt 311 [(311, 7)]).mtCur.toNat ∧ (mtAt 311 [(311, 7)]).mtCur.toNat ≤ 312) ∧
    (∃ t, exec .mtExtract (mtAt 311 [(311, 7)]) = .next t) ∧ fresh4.mtCur.toNat = 511 ∧
    (∃ t, exec (.rdreg 1) fresh4 = .next t) := ⟨by decide, ⟨_, rfl⟩, rfl, ⟨_, rfl⟩⟩

/-- TgLoadStateStaysLegal and TgWidthsStayInRange, at the last push of a load. -/
theorem witness_load_state :
    (loading4.tgPhase ≠ 3 ∧ loading4.tgLdptr.toNat ≤ loading4.cfg.tgN ∧
      (loading4.tgPhase = 2 → loading4.tgLdptr.toNat = loading4.cfg.tgN) ∧
      (loading4.tgPhase = 1 → loading4.tgLdptr.toNat < loading4.cfg.tgN)) ∧
    loading4.tgs.narrow loading4.cfg.tgW ∧ loading4.tgTwist.toNat < 2 ^ loading4.cfg.tgW ∧
    ∃ t, exec (.tgPush 0x1FFFF) loading4 = .next t := by
  refine ⟨by decide, ?_, by decide, ⟨_, rfl⟩⟩
  simp [Memory.narrow, loading4, fresh4, State.resetOf, cfg4]

/-- A reset while a response waits, and the clauses about what follows. -/
theorem witness_ResetEdge :
    { busyBoth with inputs := [{ PortIn.ready with rst := true }] }.portIn.rst = true ∧ PortIn.idle.rst = false ∧
    fresh4.portIn.cmdValid = false ∧ (∃ u, step fresh4 = .next u) ∧ (339 : Index).toNat ≤ 339 ∧
    (3 : Index).toNat < fresh4.cfg.tgN := ⟨rfl, rfl, rfl, ⟨_, rfl⟩, by decide, by decide⟩

theorem witness_StepRunsTheDecodedCommand :
    decode 0x0008_0000_0000000000000000 = .ok .tgNext ∧
    (ready4.offering 0x0008_0000_0000000000000000).portIn.rst = false ∧
    (ready4.offering 0x0008_0000_0000000000000000).portIn.cmdValid = true ∧
    (ready4.offering 0x0008_0000_0000000000000000).portIn.cmdWord = 0x0008_0000_0000000000000000 ∧
    (ready4.offering 0x0008_0000_0000000000000000).ifBusy = false ∧
    hostSteady (ready4.offering 0x0008_0000_0000000000000000).portIn (ready4.offering 0x0008_0000_0000000000000000) = true := by
  decide

theorem witness_OneResponsePerCommand :
    (ready4.withProgram [0x0008_0000_0000000000000000]).inputs =
      [PortIn.offer 0x0008_0000_0000000000000000, PortIn.ready, PortIn.ready] ∧
    ready4.ifBusy = false ∧ ready4.heldCmd = none ∧ PortIn.ready.cmdValid = false ∧ PortIn.ready.rspReady = true ∧
    (PortIn.offer 0x0008_0000_0000000000000000).cmdValid = true ∧
    ∃ u, execWord 0x0008_0000_0000000000000000 (ready4.withProgram [0x0008_0000_0000000000000000]) = .next u :=
  ⟨rfl, rfl, rfl, rfl, rfl, rfl, ⟨_, rfl⟩⟩

theorem witness_ScriptedHostGetsTheCommandResponses :
    ready4.ifBusy = false ∧ ready4.rspValid = false ∧ ready4.heldCmd = none ∧
    ∃ rs t, wordTrace [0x0008_0000_0000000000000000, 0x000B_0000_0000000000000000, 0x0006_0000_0000000000000000] ready4 =
      .next (rs, t) := ⟨rfl, rfl, rfl, ⟨_, _, rfl⟩⟩

theorem witness_UntakenResponseHangsTheBlock :
    busyBoth.ifBusy = true ∧ busyBoth.rspValid = true ∧ busyBoth.heldCmd = none ∧
    ∀ p ∈ [PortIn.offer 5, PortIn.idle, PortIn.offer 5],
      p.rst = false ∧ p.rspReady = false ∧ (p.cmdValid = true → p.cmdWord = 5) := by
  refine ⟨rfl, rfl, rfl, by decide⟩

theorem witness_ChangedCommandWordIsStuck :
    { busyBoth with heldCmd := some 5, inputs := [PortIn.offer 6] }.heldCmd = some 5 ∧
    { busyBoth with heldCmd := some 5, inputs := [PortIn.offer 6] }.portIn = PortIn.offer 6 ∧
    (PortIn.offer 6).cmdWord ≠ 5 := ⟨rfl, rfl, by decide⟩

/-- PureReadsFrame, MtCommandsFrame and TgCommandsFrame. -/
theorem witness_frames :
    (∃ t, exec (.tgRdword 3) ready4 = .next t) ∧ (Instr.tgRdword 3).isPure = true ∧
    ((mtAt 311 [(311, 7)]).mtCur.toNat ≠ 312 ∧ ∃ t, exec .mtExtract (mtAt 311 [(311, 7)]) = .next t) ∧
    (∃ t, exec .mtExtract both = .next t) ∧ (∃ t, exec (.mtSeed 5489) both = .next t) ∧ both.mtw.below 340 ∧
    (∃ t, exec (.tgBegin 11 1) ready4 = .next t) ∧
    (0 ≠ loading4.tgLdptr.toNat ∧ ∃ t, exec (.tgPush 1) loading4 = .next t) ∧
    (fresh4.tgPhase ≠ 1 ∧ ∃ t, exec (.tgPush 1) fresh4 = .next t) ∧
    (1 ≠ ready4.tgCur.toNat ∧ (∃ t, exec .tgAdvance ready4 = .next t) ∧ ∃ t, exec .tgNext ready4 = .next t) ∧
    (fresh4.tgPhase ≠ 2 ∧ ∃ t, exec .tgNext fresh4 = .next t) :=
  ⟨⟨_, rfl⟩, rfl, ⟨by decide, _, rfl⟩, (exec_mtExtract_seeded ⟨by decide, mtSeedFn_full 5489⟩).imp fun _ h => h.1, ⟨_, rfl⟩,
    mtSeedFn_below 5489,
    ⟨_, rfl⟩, ⟨by decide, _, rfl⟩, ⟨by decide, _, rfl⟩, ⟨by decide, ⟨_, rfl⟩, ⟨_, rfl⟩⟩, ⟨by decide, _, rfl⟩⟩

theorem witness_ArrayPrimitives :
    339 < 340 ∧ 3 < cfg4.tgN ∧ 340 ≤ 340 ∧ cfg4.tgN ≤ 4 ∧ ready4.tgs.wf := by decide

theorem witness_AssemblerRepeatCopiesTheLines :
    assemble cfg4 ([Line.mtNext, .tgRdword 3].map AsmStmt.line) =
      some [0x0002_0000_0000000000000000, 0x0009_0003_0000000000000000] := by decide

theorem witness_AssemblerExpandsTheLoad :
    65535 ≤ 65535 ∧ 2 ^ 64 - 1 < 2 ^ 64 ∧ (∀ w ∈ [1, 2, 0x8000, 2 ^ 64 - 1], w < 2 ^ 64) ∧
    [1, 2, 0x8000, 2 ^ 64 - 1].length = cfg4.tgN ∧ [1, 2, 3].length ≠ cfg4.tgN := by decide

end Sys2Proof.Tests
end

section
/-!
The two engines apart from each other, from the synthesis parameters and from the port (00_scope.md R2, R9).
-/

namespace Sys2Proof.Machine

variable {i : Instr} {s t : State}

/-- The state with the MT engine of another state and the response word `r`. -/
def State.withMtOf (s' s : State) (r : RspWord) : State := { s' with mtw := s.mtw, mtCur := s.mtCur, rspBuf := r }

/-- The state with the parameters `cfg`, the TG engine of another state and the response word `r`. -/
def State.withTgOf (s' : State) (cfg : Config) (s : State) (r : RspWord) : State :=
  { s' with cfg := cfg, tgs := s.tgs, tgCur := s.tgCur, tgTap := s.tgTap, tgTwist := s.tgTwist, tgPhase := s.tgPhase,
            tgLdptr := s.tgLdptr, rspBuf := r }

theorem State.withMtOf_of_sameMt {s' : State} (h : s.sameMt s') : s'.withMtOf s s'.rspBuf = s' := by
  obtain ⟨hmtw, hcur⟩ := h
  rw [withMtOf, hmtw, hcur]

theorem State.withTgOf_of_sameTg {s' : State} (h : s.sameTg s') : s'.withTgOf s.cfg s s'.rspBuf = s' := by
  obtain ⟨hcfg, htgs, hcur, htap, htwist, hphase, hptr⟩ := h
  rw [withTgOf, hcfg, htgs, hcur, htap, htwist, hphase, hptr]

/-- An MT command does the same to its engine inside every other state (R2). -/
theorem exec_mt_withMtOf (hi : i.isMt = true) (h : exec i s = .next t) (s' : State)
    (r : RspWord) :
    exec i (s'.withMtOf s r) = .next (s'.withMtOf t t.rspBuf) := by
  cases i with
  | mtSeed seed =>
    cases h
    rfl
  | mtExtract =>
    rw [exec_mtExtract_next_iff] at h ⊢
    rcases h with ⟨h1, rfl⟩ | ⟨h1, w, h2, rfl⟩ | ⟨h1, m, w, h2, h3, rfl⟩
    · exact .inl ⟨h1, rfl⟩
    · exact .inr (.inl ⟨h1, w, h2, rfl⟩)
    · exact .inr (.inr ⟨h1, m, w, h2, h3, rfl⟩)
  | mtRdword idx =>
    rw [exec_mtRdword_next_iff] at h ⊢
    rcases h with ⟨h1, rfl⟩ | ⟨h1, h2, rfl⟩ | ⟨h1, h2, w, h3, rfl⟩
    · exact .inl ⟨h1, rfl⟩
    · exact .inr (.inl ⟨h1, h2, rfl⟩)
    · exact .inr (.inr ⟨h1, h2, w, h3, rfl⟩)
  | nop | tgBegin _ _ | tgPush _ | tgOutput | tgAdvance | tgNext | tgRdword _ | rdreg _ => cases hi

/-- A TG command does the same to its engine inside every other state with the same parameters (R2). -/
theorem exec_tg_withTgOf (hi : i.isTg = true) (h : exec i s = .next t) (s' : State)
    (r : RspWord) :
    exec i (s'.withTgOf s.cfg s r) = .next (s'.withTgOf s.cfg t t.rspBuf) := by
  cases i with
  | tgBegin tap twist =>
    cases h
    rfl
  | tgPush word =>
    rw [exec_tgPush_next_iff] at h ⊢
    rcases h with ⟨h1, rfl⟩ | ⟨h1, h2, rfl⟩
    · exact .inl ⟨h1, rfl⟩
    · exact .inr ⟨h1, h2, rfl⟩
  | tgOutput =>
    rw [exec_tgOutput_next_iff] at h ⊢
    rcases h with ⟨h1, rfl⟩ | ⟨h1, h2, w, h3, rfl⟩
    · exact .inl ⟨h1, rfl⟩
    · exact .inr ⟨h1, h2, w, h3, rfl⟩
  | tgAdvance =>
    rw [exec_tgAdvance_next_iff] at h ⊢
    rcases h with ⟨h1, rfl⟩ | ⟨h1, h2, current, src, h3, h4, rfl⟩
    · exact .inl ⟨h1, rfl⟩
    · exact .inr ⟨h1, h2, current, src, h3, h4, rfl⟩
  | tgNext =>
    rw [exec_tgNext_next_iff] at h ⊢
    rcases h with ⟨h1, rfl⟩ | ⟨h1, h2, current, src, h3, h4, rfl⟩
    · exact .inl ⟨h1, rfl⟩
    · exact .inr ⟨h1, h2, current, src, h3, h4, rfl⟩
  | tgRdword idx =>
    rw [exec_tgRdword_next_iff] at h ⊢
    rcases h with ⟨h1, rfl⟩ | ⟨h1, h2, rfl⟩ | ⟨h1, h2, w, h3, rfl⟩
    · exact .inl ⟨h1, rfl⟩
    · exact .inr (.inl ⟨h1, h2, rfl⟩)
    · exact .inr (.inr ⟨h1, h2, w, h3, rfl⟩)
  | nop | mtSeed _ | mtExtract | mtRdword _ | rdreg _ => cases hi

/-- An MT command writes its own engine and the response only. -/
theorem exec_mt_frame (hi : i.isMt = true) (h : exec i s = .next t) :
    t = s.withMtOf t t.rspBuf :=
  Host.Outcome.next.inj (h.symm.trans (exec_mt_withMtOf hi h s s.rspBuf))

/-- A TG command writes its own engine and the response only. -/
theorem exec_tg_frame (hi : i.isTg = true) (h : exec i s = .next t) :
    t = s.withTgOf s.cfg t t.rspBuf :=
  Host.Outcome.next.inj (h.symm.trans (exec_tg_withTgOf hi h s s.rspBuf))

theorem exec_mt_keeps_tg_and_port (hi : i.isMt = true) (h : exec i s = .next t) : s.sameTg t ∧ s.samePort t := by
  rw [exec_mt_frame hi h]
  exact ⟨⟨rfl, rfl, rfl, rfl, rfl, rfl, rfl⟩, ⟨rfl, rfl, rfl, rfl, rfl, rfl⟩⟩

theorem exec_tg_keeps_mt_and_port (hi : i.isTg = true) (h : exec i s = .next t) : s.sameMt t ∧ s.samePort t := by
  rw [exec_tg_frame hi h]
  exact ⟨⟨rfl, rfl⟩, ⟨rfl, rfl, rfl, rfl, rfl, rfl⟩⟩

/-- The response and the MT state after an MT command depend on the MT state alone. -/
theorem exec_mt_of_sameMt (hi : i.isMt = true) (h : exec i s = .next t) {s' : State} (hs : s.sameMt s') :
    ∃ t', exec i s' = .next t' ∧ t.sameMt t' ∧ t.rspBuf = t'.rspBuf := by
  have h' := exec_mt_withMtOf hi h s' s'.rspBuf
  rw [State.withMtOf_of_sameMt hs] at h'
  exact ⟨_, h', ⟨rfl, rfl⟩, rfl⟩

/-- The response and the TG state after a TG command depend on the TG state alone. -/
theorem exec_tg_of_sameTg (hi : i.isTg = true) (h : exec i s = .next t) {s' : State} (hs : s.sameTg s') :
    ∃ t', exec i s' = .next t' ∧ t.sameTg t' ∧ t.rspBuf = t'.rspBuf := by
  obtain ⟨-, hcfg, -⟩ := exec_tg_keeps_mt_and_port hi h
  have h' := exec_tg_withTgOf hi h s' s'.rspBuf
  rw [State.withTgOf_of_sameTg hs] at h'
  exact ⟨_, h', ⟨hcfg.symm, rfl, rfl, rfl, rfl, rfl, rfl⟩, rfl⟩

/-- Settles O19: a command acts on its own engine alone, whatever the rest of the state is. -/
theorem enginesAreIndependent : Obligations.EnginesAreIndependent := by
  intro i s t h
  constructor
  · intro hi
    obtain ⟨htg, hport⟩ := exec_mt_keeps_tg_and_port hi h
    exact ⟨htg, hport, fun _ => exec_mt_of_sameMt hi h⟩
  · intro hi
    obtain ⟨hmt, hport⟩ := exec_tg_keeps_mt_and_port hi h
    exact ⟨hmt, hport, fun _ => exec_tg_of_sameTg hi h⟩

/-- No command writes the synthesis parameters (R9). -/
theorem exec_next_cfg (h : exec i s = .next t) : t.cfg = s.cfg := by
  cases i with
  | nop =>
    cases h
    rfl
  | rdreg regno => obtain ⟨v, -, rfl⟩ | ⟨-, rfl⟩ := exec_rdreg_next_iff.1 h <;> rfl
  | mtSeed _ | mtExtract | mtRdword _ =>
    obtain ⟨-, hcfg, -⟩ := exec_mt_keeps_tg_and_port rfl h
    exact hcfg.symm
  | tgBegin _ _ | tgPush _ | tgOutput | tgAdvance | tgNext | tgRdword _ =>
    obtain ⟨-, hcfg, -⟩ := exec_tg_keeps_mt_and_port rfl h
    exact hcfg.symm

/-- Accepting a command word, legal or not, leaves the synthesis parameters. -/
theorem acceptCommand_next_cfg {w : CmdWord} (h : acceptCommand w s = .next t) : t.cfg = s.cfg := by
  obtain ⟨i, u, -, hu, rfl⟩ | ⟨e, -, rfl⟩ := acceptCommand_next_iff.1 h
  · show u.cfg = s.cfg
    exact exec_next_cfg hu
  · rfl

/-- Settles O45: an accepted word keeps the parameters as its command does, a reset edge by its definition, and the other
events of a step write the interface only. -/
theorem parametersNeverChange : Obligations.ParametersNeverChange := by
  intro s t h
  obtain ⟨-, rfl⟩ | ⟨-, -, haccept | hother⟩ := step_next_iff.1 h
  · rfl
  · obtain ⟨-, -, haccept⟩ := haccept
    show t.cfg = s.useInput.cfg
    exact acceptCommand_next_cfg haccept
  · obtain ⟨-, -, rfl⟩ | ⟨-, -, -, rfl⟩ | ⟨-, -, -, rfl⟩ | ⟨-, -, rfl⟩ := hother <;> rfl

end Sys2Proof.Machine
end

section
/-!
The block at its ports against the sequence of its commands (00_scope.md R17, 20_memory.md R55, 30_encoding.md R68): the
three steps of one word, then the whole script by induction on the words.
-/

namespace Sys2Proof.Machine

variable {s t u : State} {w : CmdWord} {ws : List CmdWord} {ps : List PortIn} {rs rs₀ : List RspWord}

/-- A command word, legal or not, neither reads nor writes the interface's part of the state but `RSP_BUF`. -/
theorem execWord_next_withPort (h : execWord w s = .next t) (b v : Bool) (ps : List PortIn) (hc : Option CmdWord)
    (rs : List RspWord) : execWord w (s.withPort b v ps hc rs) = .next (t.withPort b v ps hc rs) := by
  unfold execWord at h ⊢
  cases hd : decode w with
  | ok i =>
    rw [hd] at h
    exact exec_next_withPort h b v ps hc rs
  | error e =>
    rw [hd] at h
    cases h
    rfl

/-- What neither reads nor writes the interface's part leaves it as it was. -/
theorem execWord_next_keeps_port (h : execWord w s = .next t) :
    t = t.withPort s.ifBusy s.rspValid s.inputs s.heldCmd s.taken :=
  Host.Outcome.next.inj (h.symm.trans (execWord_next_withPort h _ _ _ _ _))

/-- A sequence of command words leaves the interface's part as it was. -/
theorem wordTrace_next_keeps_port (h : wordTrace ws s = .next (rs, t)) :
    t = t.withPort s.ifBusy s.rspValid s.inputs s.heldCmd s.taken := by
  induction ws generalizing s rs with
  | nil =>
    cases h
    rfl
  | cons w ws ih =>
    obtain ⟨u, rs', hu, ht, -⟩ := wordTrace_cons_next_iff.1 h
    have hrest := ih ht
    rw [execWord_next_keeps_port hu] at hrest
    exact hrest

/-- A sequence of command words makes one response a word. -/
theorem wordTrace_next_length (h : wordTrace ws s = .next (rs, t)) : rs.length = ws.length := by
  induction ws generalizing s rs with
  | nil =>
    cases h
    rfl
  | cons w ws ih =>
    obtain ⟨u, rs', -, ht, rfl⟩ := wordTrace_cons_next_iff.1 h
    exact congrArg (· + 1) (ih ht)

/-- An idle block accepts the word offered and executes it whole (R67, R68). -/
theorem step_offer (h : execWord w s = .next u) :
    step (s.withPort false false (PortIn.offer w :: ps) none rs) = .next (u.withPort true false ps none rs) := by
  have haccept : acceptCommand w (s.withPort false false ps none rs) = .next (u.withPort true false ps none rs) := by
    rw [acceptCommand_eq_execWord, execWord_next_withPort h]
    rfl
  exact step_next_iff.2 (.inr ⟨rfl, rfl, .inl ⟨rfl, rfl, haccept⟩⟩)

/-- The block presents the response of the command outstanding (R67). -/
theorem step_present :
    step (s.withPort true false (PortIn.ready :: ps) none rs) = .next (s.withPort true true ps none rs) :=
  step_next_iff.2 (.inr ⟨rfl, rfl, .inr (.inl ⟨rfl, rfl, rfl⟩)⟩)

/-- A ready host takes the response presented, and the block is idle again (R67). -/
theorem step_take :
    step (s.withPort true true (PortIn.ready :: ps) none rs) =
      .next (s.withPort false false ps none (rs ++ [s.rspBuf])) :=
  step_next_iff.2 (.inr ⟨rfl, rfl, .inr (.inr (.inl ⟨rfl, rfl, rfl, rfl⟩))⟩)

/-- Three steps of the script are one word of the sequence. -/
theorem run_hostScript_cons (h : execWord w s = .next u) (k : Nat) :
    Host.Core.run Sys2Proof.core (k + 3) (s.withPort false false (hostScript (w :: ws)) none rs) =
      Host.Core.run Sys2Proof.core k (u.withPort false false (hostScript ws) none (rs ++ [u.rspBuf])) :=
  calc Host.Core.run Sys2Proof.core (k + 3) (s.withPort false false (hostScript (w :: ws)) none rs)
    _ = Host.Core.run Sys2Proof.core (k + 2)
          (u.withPort true false (PortIn.ready :: PortIn.ready :: hostScript ws) none rs) :=
        core_run_succ (step_offer h)
    _ = Host.Core.run Sys2Proof.core (k + 1) (u.withPort true true (PortIn.ready :: hostScript ws) none rs) :=
        core_run_succ step_present
    _ = Host.Core.run Sys2Proof.core k (u.withPort false false (hostScript ws) none (rs ++ [u.rspBuf])) :=
        core_run_succ step_take

/-- The block run on the script of a sequence of words, the host having taken `rs₀` before. -/
theorem run_hostScript (h : wordTrace ws s = .next (rs, t)) :
    Host.Core.run Sys2Proof.core (3 * ws.length) (s.withPort false false (hostScript ws) none rs₀) =
      .next (t.withPort false false [] none (rs₀ ++ rs)) := by
  induction ws generalizing s rs rs₀ with
  | nil =>
    cases h
    rw [List.append_nil]
    rfl
  | cons w ws ih =>
    obtain ⟨u, rs', hu, ht, rfl⟩ := wordTrace_cons_next_iff.1 h
    rw [List.length_cons, Nat.mul_succ, run_hostScript_cons hu, ih ht, List.append_assoc, List.singleton_append]

/-- Settles O50: the script's run is the trace of its words with the port's part put back, by induction on the words. -/
theorem scriptedHostGetsTheCommandResponses : Obligations.ScriptedHostGetsTheCommandResponses := by
  intro ws s t rs hbusy hvalid hheld h
  have hstart : s.withProgram ws = s.withPort false false (hostScript ws) none s.taken := by
    simp only [State.withProgram, State.withPort, hbusy, hvalid, hheld]
  have hend : { t with inputs := [], taken := s.taken ++ rs } =
      t.withPort false false [] none (s.taken ++ rs) := by
    rw [wordTrace_next_keeps_port h, hbusy, hvalid, hheld]
    rfl
  refine ⟨wordTrace_next_length h, ?_⟩
  rw [hstart, hend]
  exact run_hostScript h

end Sys2Proof.Machine
end

section
/-!
What a command can do to the state when it answers, said once for all commands: each part of the invariant is kept by
every such effect (10_state.md R23, R26, R29, R30, R32, R42).
-/

namespace Sys2Proof.Machine

variable {i : Instr} {s t : State}

/-- The state with the construction that `TG.BEGIN` starts (R121). -/
def begun (s : State) (tap : Index) (twist : Word) : State :=
  ((s.withTgParams tap (truncTG s.cfg twist)).withTgCur 0).withTgLoad 0 phaseLoading

theorem exec_tgBegin_eq_begun (tap : Index) (twist : Word) :
    exec (.tgBegin tap twist) s = .next ((begun s tap twist).respond .ok 0) := rfl

/-- What the command `i` can do to `s` when it answers `t`: a response only, or the writes of one command with its
response. -/
inductive Effect (s : State) : Instr → State → Prop
  | response {i : Instr} (st : Status) (d : Word) (hd : st ≠ .ok → d = 0) : Effect s i (s.respond st d)
  | seeded (seed : Word) : Effect s (.mtSeed seed) (((s.withMtw (mtSeedFn seed)).withMtCur 312).respond .ok 0)
  | extracted (d : Word) (hcur : s.mtCur.toNat < 312) :
      Effect s .mtExtract ((s.withMtCur (s.mtCur + 1)).respond .ok d)
  | twisted (m : Memory) (d : Word) (hcur : s.mtCur.toNat = 312) (hm : mtTwistFn s.mtw = .ok m) :
      Effect s .mtExtract (((s.withMtw m).withMtCur 1).respond .ok d)
  | begun (tap : Index) (twist : Word) : Effect s (.tgBegin tap twist) ((begun s tap twist).respond .ok 0)
  | pushed (word : Word) (hphase : s.tgPhase = phaseLoading) (hptr : s.tgLdptr.toNat < s.cfg.tgN) :
      Effect s (.tgPush word) (pushed s word)
  | advanced {i : Instr} (current src d : Word) (hi : i = .tgAdvance ∨ i = .tgNext) (hphase : s.tgPhase = phaseReady)
      (hcur : s.tgCur.toNat < s.cfg.tgN) : Effect s i ((advanced s current src).respond .ok d)

theorem Effect.ok (d : Word) : Effect s i (s.respond .ok d) := .response .ok d (fun h => absurd rfl h)

theorem Effect.error (st : Status) : Effect s i (s.raise st) := .response st 0 (fun _ => rfl)

/-- Every answer of a command is one of the effects. -/
theorem exec_effect (h : exec i s = .next t) : Effect s i t := by
  cases i with
  | nop =>
    cases h
    exact .ok 0
  | mtSeed seed =>
    cases h
    exact .seeded seed
  | mtExtract =>
    obtain ⟨-, rfl⟩ | ⟨hcur, w, -, rfl⟩ | ⟨hcur, m, w, hm, -, rfl⟩ := exec_mtExtract_next_iff.1 h
    · exact .error _
    · exact .extracted _ hcur
    · exact .twisted m _ hcur hm
  | mtRdword idx =>
    obtain ⟨-, rfl⟩ | ⟨-, -, rfl⟩ | ⟨-, -, w, -, rfl⟩ := exec_mtRdword_next_iff.1 h
    · exact .error _
    · exact .error _
    · exact .ok w
  | tgBegin tap twist =>
    cases h
    exact .begun tap twist
  | tgPush word =>
    obtain ⟨-, rfl⟩ | ⟨hphase, hptr, rfl⟩ := exec_tgPush_next_iff.1 h
    · exact .error _
    · exact .pushed word hphase hptr
  | tgOutput =>
    obtain ⟨-, rfl⟩ | ⟨-, -, w, -, rfl⟩ := exec_tgOutput_next_iff.1 h
    · exact .error _
    · exact .ok _
  | tgAdvance =>
    obtain ⟨-, rfl⟩ | ⟨hphase, hcur, current, src, -, -, rfl⟩ := exec_tgAdvance_next_iff.1 h
    · exact .error _
    · exact .advanced current src 0 (.inl rfl) hphase hcur
  | tgNext =>
    obtain ⟨-, rfl⟩ | ⟨hphase, hcur, current, src, -, -, rfl⟩ := exec_tgNext_next_iff.1 h
    · exact .error _
    · exact .advanced current src _ (.inr rfl) hphase hcur
  | tgRdword idx =>
    obtain ⟨-, rfl⟩ | ⟨-, -, rfl⟩ | ⟨-, -, w, -, rfl⟩ := exec_tgRdword_next_iff.1 h
    · exact .error _
    · exact .error _
    · exact .ok _
  | rdreg regno =>
    obtain ⟨v, -, rfl⟩ | ⟨-, rfl⟩ := exec_rdreg_next_iff.1 h
    · exact .ok v
    · exact .error _

/-! ## The response -/

theorem rspLegal_pack {st : Status} {d : Word} (hd : st ≠ .ok → d = 0) : rspLegal (packResponse st d) := by
  by_cases hst : st = .ok
  · subst hst
    exact rspLegal_ok d
  · rw [hd hst]
    exact rspLegal_error st

/-- Every command answers with a response word that the block may produce (R66, R155). -/
theorem Effect.rspLegal (he : Effect s i t) : rspLegal t.rspBuf := by
  cases he with
  | response st d hd => exact rspLegal_pack hd
  | seeded | extracted | twisted | begun | pushed | advanced => exact rspLegal_ok _

/-! ## `MT_CUR` -/

/-- The values of `MT_CUR` after a command (R23). -/
def mtCurLegal (c : BitVec 9) : Prop := (1 ≤ c.toNat ∧ c.toNat ≤ 312) ∨ c.toNat = 511

theorem mtCurLegal_sentinel : mtCurLegal 312 := .inl ⟨by decide, by decide⟩

theorem mtCurLegal_one : mtCurLegal 1 := .inl ⟨by decide, by decide⟩

/-- The cursor moved on from below the sentinel is in range (R96). -/
theorem mtCurLegal_succ {c : BitVec 9} (h : c.toNat < 312) : mtCurLegal (c + 1) := by
  have hsucc : (c + 1).toNat = c.toNat + 1 := by bv_omega
  exact .inl ⟨by omega, by omega⟩

theorem Effect.keeps_mtCurLegal (he : Effect s i t) (h : mtCurLegal s.mtCur) : mtCurLegal t.mtCur := by
  cases he with
  | seeded => exact mtCurLegal_sentinel
  | extracted d hcur => exact mtCurLegal_succ hcur
  | twisted => exact mtCurLegal_one
  | response | begun | pushed | advanced => exact h

/-! ## The load state -/

/-- The load state (R29): phase 3 never, the pointer in [0, `TG_N`], `TG_N` when READY and below `TG_N` while LOADING. -/
def State.loadLegal (s : State) : Prop :=
  s.tgPhase ≠ 3 ∧ s.tgLdptr.toNat ≤ s.cfg.tgN ∧ (s.tgPhase = phaseReady → s.tgLdptr.toNat = s.cfg.tgN) ∧
    (s.tgPhase = phaseLoading → s.tgLdptr.toNat < s.cfg.tgN)

theorem begun_loadLegal (tap : Index) (twist : Word) : (begun s tap twist).loadLegal :=
  ⟨show phaseLoading ≠ 3 by decide, Nat.zero_le _, fun h => absurd h (show phaseLoading ≠ phaseReady by decide),
    fun _ => s.cfg.tgN_pos⟩

/-- A push moves the pointer by one, to READY exactly when it reaches `TG_N` (R122). -/
theorem pushed_loadLegal (hphase : s.tgPhase = phaseLoading) (hptr : s.tgLdptr.toNat < s.cfg.tgN) (word : Word) :
    (pushed s word).loadLegal := by
  simp only [State.loadLegal, pushed_tgPhase, pushed_tgLdptr, pushed_cfg, tgLdptr_next_toNat hptr]
  split
  · exact ⟨by decide, by omega, fun _ => by assumption, fun h => absurd h (by decide)⟩
  · rw [hphase]
    exact ⟨by decide, by omega, fun h => absurd h (by decide), fun _ => by omega⟩

theorem Effect.keeps_loadLegal (he : Effect s i t) (h : s.loadLegal) : t.loadLegal := by
  cases he with
  | begun tap twist => exact begun_loadLegal tap twist
  | pushed word hphase hptr => exact pushed_loadLegal hphase hptr word
  | response | seeded | extracted | twisted | advanced => exact h

/-! ## The widths of the TG words -/

/-- `TG` words and the twist vector have `TG_W` bits (R30). -/
def State.tgNarrow (s : State) : Prop := s.tgs.narrow s.cfg.tgW ∧ s.tgTwist.toNat < 2 ^ s.cfg.tgW

theorem Effect.keeps_tgNarrow (he : Effect s i t) (h : s.tgNarrow) : t.tgNarrow := by
  obtain ⟨htgs, htwist⟩ := h
  cases he with
  | begun tap twist => exact ⟨htgs, truncTG_lt s.cfg twist⟩
  | pushed word => exact ⟨Memory.narrow_write htgs _ (truncTG_lt s.cfg word), htwist⟩
  | advanced current src => exact ⟨Memory.narrow_write htgs _ (truncTG_lt s.cfg _), htwist⟩
  | response | seeded | extracted | twisted => exact ⟨htgs, htwist⟩

/-! ## The invariant -/

theorem State.Inv.mtSeeded (h : s.Inv) (hcur : s.mtCur.toNat ≤ 312) : s.mtSeeded := ⟨hcur, h.mtw_full hcur⟩

/-- A READY engine holds the two words that an advance reads (R42, R120). -/
theorem State.Inv.advance_reads (h : s.Inv) (hphase : s.tgPhase = phaseReady) :
    ∃ current src, s.tgs.read? s.tgCur.toNat = some current ∧ s.tgs.read? (tgSrcIndex s) = some src := by
  obtain ⟨current, hcurrent⟩ := h.ready_full hphase _ h.tgCur_lt
  obtain ⟨src, hsrc⟩ := h.ready_full hphase _ (tgSrcIndex_lt s)
  exact ⟨current, src, hcurrent, hsrc⟩

theorem inv_respond {st : Status} {d : Word} (h : s.Inv) (hd : st ≠ .ok → d = 0) : (s.respond st d).Inv :=
  { h with rspBuf_legal := fun _ => rspLegal_pack hd }

theorem inv_respond_ok (h : s.Inv) (d : Word) : (s.respond .ok d).Inv := inv_respond h (fun hok => absurd rfl hok)

/-- A new MT engine, all its slots full (R42), in a state that meets the invariant. -/
theorem inv_withMt {m : Memory} {c : BitVec 9} (h : s.Inv) (hwf : m.wf) (hbelow : m.below 340) (hfull : m.full 340)
    (hc : mtCurLegal c) : ((s.withMtw m).withMtCur c).Inv :=
  { h with mtw_wf := hwf, mtw_below := hbelow, mtCur_range := hc, mtw_full := fun _ => hfull }

theorem inv_begun (h : s.Inv) (tap : Index) (twist : Word) : (begun s tap twist).Inv := by
  obtain ⟨hphase, hle, hready, hloading⟩ := begun_loadLegal (s := s) tap twist
  exact { h with
    tgTwist_narrow := truncTG_lt s.cfg twist
    tgCur_lt := s.cfg.tgN_pos
    tgPhase_legal := hphase
    tgLdptr_le := hle
    ready_ptr := hready
    loading_lt := hloading
    loading_full := fun _ k hk => absurd hk (Nat.not_lt_zero k)
    ready_full := fun hr => absurd hr (show phaseLoading ≠ phaseReady by decide) }

theorem inv_pushed (h : s.Inv) (hload : s.tgPhase = phaseLoading) (hptr : s.tgLdptr.toNat < s.cfg.tgN) (word : Word) :
    (pushed s word).Inv := by
  obtain ⟨hphase, hle, hready, hloading⟩ := pushed_loadLegal hload hptr word
  have hfull : (pushed s word).tgs.full (pushed s word).tgLdptr.toNat := by
    rw [pushed_tgLdptr, tgLdptr_next_toNat hptr]
    exact Memory.full_write_succ (h.loading_full hload) _
  exact { h with
    tgs_wf := Memory.wf_write h.tgs_wf _ _
    tgs_below := Memory.below_write h.tgs_below hptr _
    tgs_narrow := Memory.narrow_write h.tgs_narrow _ (truncTG_lt s.cfg word)
    tgPhase_legal := hphase
    tgLdptr_le := hle
    ready_ptr := hready
    loading_lt := hloading
    loading_full := fun _ => hfull
    ready_full := fun hr => hready hr ▸ hfull
    rspBuf_legal := fun _ => rspLegal_ok 0 }

theorem inv_advanced (h : s.Inv) (current src : Word) : (advanced s current src).Inv :=
  { h with
    tgs_wf := Memory.wf_write h.tgs_wf _ _
    tgs_below := Memory.below_write h.tgs_below h.tgCur_lt _
    tgs_narrow := Memory.narrow_write h.tgs_narrow _ (truncTG_lt s.cfg _)
    tgCur_lt := by
      rw [advanced_tgCur, tgCur_next_toNat]
      exact Nat.mod_lt _ s.cfg.tgN_pos
    loading_full := fun hl => Memory.full_write (h.loading_full hl) _ _
    ready_full := fun hr => Memory.full_write (h.ready_full hr) _ _ }

theorem Effect.keeps_inv (he : Effect s i t) (h : s.Inv) : t.Inv := by
  cases he with
  | response st d hd => exact inv_respond h hd
  | seeded seed =>
    exact inv_respond_ok
      (inv_withMt h (mtSeedFn_wf seed) (mtSeedFn_below seed) (mtSeedFn_full seed) mtCurLegal_sentinel) 0
  | extracted d hcur =>
    exact inv_respond_ok
      (inv_withMt h h.mtw_wf h.mtw_below (h.mtw_full (by omega)) (mtCurLegal_succ hcur)) d
  | twisted m d hcur hm =>
    exact inv_respond_ok
      (inv_withMt h (mtTwistFn_wf hm h.mtw_wf) (mtTwistFn_below hm h.mtw_below)
        (mtTwistFn_keeps_full hm (h.mtw_full (by omega))) mtCurLegal_one) d
  | begun tap twist => exact inv_respond_ok (inv_begun h tap twist) 0
  | pushed word hphase hptr => exact inv_pushed h hphase hptr word
  | advanced current src d => exact inv_respond_ok (inv_advanced h current src) d

/-- No command reads a slot without a value or out of range in a state that meets the invariant (R42, R59). -/
theorem exec_answers (h : s.Inv) (i : Instr) : ∃ t, exec i s = .next t := by
  cases i with
  | nop | mtSeed _ | tgBegin _ _ => exact ⟨_, rfl⟩
  | mtExtract =>
    rcases Nat.lt_or_ge 312 s.mtCur.toNat with hun | hcur
    · exact ⟨_, exec_mtExtract_next_iff.2 (.inl ⟨hun, rfl⟩)⟩
    · obtain ⟨t, ht, -⟩ := exec_mtExtract_seeded (h.mtSeeded hcur)
      exact ⟨t, ht⟩
  | mtRdword idx =>
    rcases Nat.lt_or_ge 339 idx.toNat with hout | hidx
    · exact ⟨_, exec_mtRdword_next_iff.2 (.inl ⟨hout, rfl⟩)⟩
    rcases Nat.lt_or_ge 312 s.mtCur.toNat with hun | hcur
    · exact ⟨_, exec_mtRdword_next_iff.2 (.inr (.inl ⟨hidx, hun, rfl⟩))⟩
    · obtain ⟨w, hw⟩ := h.mtw_full hcur idx.toNat (by omega)
      exact ⟨_, exec_mtRdword_next_iff.2 (.inr (.inr ⟨hidx, hcur, w, hw, rfl⟩))⟩
  | tgPush word =>
    by_cases hphase : s.tgPhase = phaseLoading
    · exact ⟨_, exec_tgPush_next_iff.2 (.inr ⟨hphase, h.loading_lt hphase, rfl⟩)⟩
    · exact ⟨_, exec_tgPush_next_iff.2 (.inl ⟨hphase, rfl⟩)⟩
  | tgOutput =>
    by_cases hphase : s.tgPhase = phaseReady
    · obtain ⟨w, hw⟩ := h.ready_full hphase _ h.tgCur_lt
      exact ⟨_, exec_tgOutput_next_iff.2 (.inr ⟨hphase, h.tgCur_lt, w, hw, rfl⟩)⟩
    · exact ⟨_, exec_tgOutput_next_iff.2 (.inl ⟨hphase, rfl⟩)⟩
  | tgAdvance =>
    by_cases hphase : s.tgPhase = phaseReady
    · obtain ⟨current, src, hcurrent, hsrc⟩ := h.advance_reads hphase
      exact ⟨_, exec_tgAdvance_next_iff.2 (.inr ⟨hphase, h.tgCur_lt, current, src, hcurrent, hsrc, rfl⟩)⟩
    · exact ⟨_, exec_tgAdvance_next_iff.2 (.inl ⟨hphase, rfl⟩)⟩
  | tgNext =>
    by_cases hphase : s.tgPhase = phaseReady
    · obtain ⟨current, src, hcurrent, hsrc⟩ := h.advance_reads hphase
      exact ⟨_, exec_tgNext_next_iff.2 (.inr ⟨hphase, h.tgCur_lt, current, src, hcurrent, hsrc, rfl⟩)⟩
    · exact ⟨_, exec_tgNext_next_iff.2 (.inl ⟨hphase, rfl⟩)⟩
  | tgRdword idx =>
    rcases Nat.lt_or_ge idx.toNat s.cfg.tgN with hidx | hout
    · by_cases hphase : s.tgPhase = phaseReady
      · obtain ⟨w, hw⟩ := h.ready_full hphase _ hidx
        exact ⟨_, exec_tgRdword_next_iff.2 (.inr (.inr ⟨hidx, hphase, w, hw, rfl⟩))⟩
      · exact ⟨_, exec_tgRdword_next_iff.2 (.inr (.inl ⟨hidx, hphase, rfl⟩))⟩
    · exact ⟨_, exec_tgRdword_next_iff.2 (.inl ⟨hout, rfl⟩)⟩
  | rdreg regno =>
    cases hreg : readReg s regno with
    | some v => exact ⟨_, exec_rdreg_next_iff.2 (.inl ⟨v, hreg, rfl⟩)⟩
    | none => exact ⟨_, exec_rdreg_next_iff.2 (.inr ⟨hreg, rfl⟩)⟩

/-- Settles O41: the invariant gives each command the slots it reads, and every effect keeps it. -/
theorem everyCommandCompletes : Obligations.EveryCommandCompletes := by
  intro i s h
  obtain ⟨t, ht⟩ := exec_answers h i
  exact ⟨t, ht, (exec_effect ht).keeps_inv h⟩

end Sys2Proof.Machine
end

section
/-!
The invariant over the steps of the block at its ports (30_encoding.md R67, 70_reset_and_hazards.md R180).
-/

namespace Sys2Proof.Machine

variable {s t : State} {w : CmdWord}

/-- A reset edge meets the invariant from every state whose taken responses are legal (R33). -/
theorem inv_resetEdge (htaken : ∀ r ∈ s.taken, rspLegal r) : s.resetEdge.Inv where
  mtw_wf := List.Pairwise.nil
  mtw_below := fun _ hc => absurd hc List.not_mem_nil
  tgs_wf := List.Pairwise.nil
  tgs_below := fun _ hc => absurd hc List.not_mem_nil
  mtCur_range := .inr rfl
  mtw_full := fun hcur => absurd hcur (show ¬ (0x1FF : BitVec 9).toNat ≤ 312 by decide)
  tgs_narrow := fun _ hc => absurd hc List.not_mem_nil
  tgTwist_narrow := Nat.two_pow_pos _
  tgCur_lt := s.cfg.tgN_pos
  tgPhase_legal := show phaseEmpty ≠ 3 by decide
  tgLdptr_le := Nat.zero_le _
  loading_lt := fun _ => s.cfg.tgN_pos
  ready_ptr := fun hr => absurd hr (show phaseEmpty ≠ phaseReady by decide)
  loading_full := fun _ k hk => absurd hk (Nat.not_lt_zero k)
  ready_full := fun hr => absurd hr (show phaseEmpty ≠ phaseReady by decide)
  rspValid_busy := fun hv => hv
  rspBuf_legal := fun hb => absurd hb Bool.false_ne_true
  taken_legal := htaken

/-- Settles O38: the post-reset state is its own state after a reset edge, with no response taken. -/
theorem resetMeetsTheInvariant : Obligations.ResetMeetsTheInvariant :=
  fun cfg => inv_resetEdge (s := State.resetOf cfg) (fun _ hr => absurd hr List.not_mem_nil)

/-- Settles O46, by the definition of the post-reset state. -/
theorem resetValues : Obligations.ResetValues :=
  fun _ => ⟨fun _ => rfl, rfl, fun _ => rfl, rfl, rfl, rfl, rfl, rfl, rfl, rfl, rfl, rfl, rfl⟩

theorem inv_useInput (h : s.Inv) : s.useInput.Inv := { h with }

theorem inv_present (h : s.Inv) (hbusy : s.ifBusy = true) : s.present.Inv := { h with rspValid_busy := fun _ => hbusy }

theorem inv_beginBusy (h : s.Inv) (hrsp : rspLegal s.rspBuf) : s.beginBusy.Inv :=
  { h with
    rspValid_busy := fun _ => rfl
    rspBuf_legal := fun _ => hrsp }

theorem inv_takeResponse (h : s.Inv) (hbusy : s.ifBusy = true) : s.takeResponse.Inv :=
  { h with
    rspValid_busy := fun hv => hv
    rspBuf_legal := fun hb => absurd hb Bool.false_ne_true
    taken_legal := by
      intro r hr
      rcases List.mem_append.1 hr with hr | hr
      · exact h.taken_legal r hr
      · exact List.mem_singleton.1 hr ▸ h.rspBuf_legal hbusy }

/-- An accepted word, legal or not, keeps the invariant (R67, R157). -/
theorem acceptCommand_keeps_inv (h : s.Inv) (ha : acceptCommand w s = .next t) : t.Inv := by
  obtain ⟨i, u, -, hu, rfl⟩ | ⟨e, -, rfl⟩ := acceptCommand_next_iff.1 ha
  · have he := exec_effect hu
    exact inv_beginBusy (he.keeps_inv h) he.rspLegal
  · exact inv_beginBusy (inv_respond h (fun _ => rfl)) (rspLegal_error .errIllegal)

theorem acceptCommand_answers (h : s.Inv) (w : CmdWord) : ∃ t, acceptCommand w s = .next t := by
  cases hd : decode w with
  | ok i =>
    obtain ⟨u, hu⟩ := exec_answers h i
    exact ⟨_, acceptCommand_next_iff.2 (.inl ⟨i, u, hd, hu, rfl⟩)⟩
  | error e => exact ⟨_, acceptCommand_error hd⟩

/-- Settles O39: the reset edge, the accepted command, and the port's own events each keep the invariant. -/
theorem everyStepKeepsTheInvariant : Obligations.EveryStepKeepsTheInvariant := by
  intro s t h hstep
  have hu := inv_useInput h
  obtain ⟨-, rfl⟩ | ⟨-, -, haccept | hother⟩ := step_next_iff.1 hstep
  · exact inv_resetEdge h.taken_legal
  · obtain ⟨-, -, haccept⟩ := haccept
    exact acceptCommand_keeps_inv hu haccept
  · obtain ⟨hbusy, -, rfl⟩ | ⟨hbusy, -, -, rfl⟩ | ⟨-, -, -, rfl⟩ | ⟨-, -, rfl⟩ := hother
    · exact inv_present hu hbusy
    · exact inv_takeResponse hu hbusy
    · exact hu
    · exact hu

/-- Each event of the port answers in a state that meets the invariant. -/
theorem portStep_answers (h : s.Inv) (p : PortIn) : ∃ t, portStep p s = .next t := by
  unfold portStep
  split_ifs
  · exact ⟨s.resetEdge, rfl⟩
  · exact ⟨s.takeResponse, rfl⟩
  · exact ⟨s, rfl⟩
  · exact ⟨s.present, rfl⟩
  · exact acceptCommand_answers h p.cmdWord
  · exact ⟨s, rfl⟩

/-- Settles O40: with a steady host or a reset the step is the port's, which answers. -/
theorem steadyHostNeverStopsTheBlock : Obligations.SteadyHostNeverStopsTheBlock := by
  intro s h hhost
  have hstep : step s = portStep s.portIn s.useInput := if_pos (by simpa using hhost)
  rw [hstep]
  exact portStep_answers (inv_useInput h) s.portIn

end Sys2Proof.Machine
end

section
/-!
What each command writes and what it leaves (10_state.md R23, R27, R29, R30, R32), and the registers as `RDREG` reads
them (R34 to R38).
-/

namespace Sys2Proof.Machine

variable {i : Instr} {s t : State}

/-! ## The registers -/

/-- The field just above the low part of a concatenation. -/
theorem extract_second {a b c : Nat} (x : BitVec a) (y : BitVec b) (z : BitVec c) :
    (x ++ y ++ z).extractLsb' c b = y :=
  (extract_skip (x ++ y) z 0 b).trans (extract_low x y)

/-- The third field of a concatenation, counted from the low end. -/
theorem extract_third {a b c d : Nat} (x : BitVec a) (y : BitVec b) (z : BitVec c) (w : BitVec d) :
    (x ++ y ++ z ++ w).extractLsb' (d + c) b = y :=
  (extract_skip (x ++ y ++ z) w c b).trans (extract_second x y z)

theorem regParam_layout (s : State) :
    ((regParam s).extractLsb' 0 16).toNat = 312 ∧ ((regParam s).extractLsb' 16 16).toNat = 340 ∧
      ((regParam s).extractLsb' 32 16).toNat = s.cfg.tgN ∧ ((regParam s).extractLsb' 48 7).toNat = s.cfg.tgW ∧
      (regParam s).extractLsb' 55 9 = 0 := by
  have hmtN : (regParam s).extractLsb' 0 16 = BitVec.ofNat 16 mtN := extract_low _ _
  have hmtNalloc : (regParam s).extractLsb' 16 16 = BitVec.ofNat 16 mtNalloc := extract_second _ _ _
  have htgN : (regParam s).extractLsb' 32 16 = BitVec.ofNat 16 s.cfg.tgN := extract_third _ _ _ _
  have htgW : (regParam s).extractLsb' 48 7 = BitVec.ofNat 7 s.cfg.tgW :=
    (extract_skip _ _ 32 7).trans (extract_third _ _ _ _)
  have hzero : (regParam s).extractLsb' 55 9 = 0 :=
    (extract_skip _ _ 39 9).trans
      ((extract_skip _ _ 23 9).trans ((extract_skip _ _ 7 9).trans (extract_high _ _)))
  have hn := s.cfg.tgN_le
  have hw := s.cfg.tgW_le
  rw [hmtN, hmtNalloc, htgN, htgW, BitVec.toNat_ofNat, BitVec.toNat_ofNat]
  exact ⟨rfl, rfl, Nat.mod_eq_of_lt (by omega), Nat.mod_eq_of_lt (by omega), hzero⟩

theorem regMtStatus_mtCur (s : State) : (regMtStatus s).extractLsb' 0 9 = s.mtCur := extract_low _ _

theorem regTgStatus_layout (s : State) :
    (regTgStatus s).extractLsb' 0 16 = s.tgCur ∧ (regTgStatus s).extractLsb' 16 16 = s.tgLdptr ∧
      (regTgStatus s).extractLsb' 32 2 = s.tgPhase ∧ (regTgStatus s).extractLsb' 34 30 = 0 :=
  ⟨extract_low _ _, extract_second _ _ _, extract_third _ _ _ _,
    (extract_skip _ _ 18 30).trans ((extract_skip _ _ 2 30).trans (extract_high _ _))⟩

/-- Settles O10: each field of a concatenation is read off by its place. -/
theorem registerLayouts : Obligations.RegisterLayouts := by
  intro s
  exact ⟨regParam_layout s, ⟨regMtStatus_mtCur s, extract_high _ _⟩, regTgStatus_layout s,
    ⟨extract_low _ _, extract_high _ _⟩, truncTG_toNat s.cfg s.tgTwist⟩

/-- `MT_STATUS` does not read 0 (R23). -/
theorem regMtStatus_ne_zero (h : mtCurLegal s.mtCur) : regMtStatus s ≠ 0 := by
  intro hzero
  have hcur : s.mtCur.toNat = 0 := by
    rw [← regMtStatus_mtCur s, hzero]
    rfl
  rcases h with ⟨hpos, -⟩ | hend <;> omega

/-! ## What every command keeps -/

/-- Settles O42: every effect keeps the cursor's range, and the range leaves out the 0 that `MT_STATUS` would read. -/
theorem mtCursorAfterAnyCommand : Obligations.MtCursorAfterAnyCommand := by
  intro i s t hcur h
  refine ⟨(exec_effect h).keeps_mtCurLegal hcur, ?_⟩
  rintro rfl
  cases h
  rw [State.respond_rspBuf, rspData_pack]
  exact regMtStatus_ne_zero hcur

/-- Settles O43: every effect keeps the load state legal. -/
theorem tgLoadStateStaysLegal : Obligations.TgLoadStateStaysLegal :=
  fun _ _ _ hlegal h => (exec_effect h).keeps_loadLegal hlegal

/-- Settles O44: every effect keeps the words narrow, and what a slot reads as is one of them. -/
theorem tgWidthsStayInRange : Obligations.TgWidthsStayInRange := by
  intro i s t htgs htwist h
  obtain ⟨htgs', htwist'⟩ := (exec_effect h).keeps_tgNarrow ⟨htgs, htwist⟩
  exact ⟨htgs', htwist', fun k w hw => htgs' _ (Memory.mem_of_read? hw), fun _ w _ => w.isLt⟩

/-! ## Frames -/

/-- Settles O53: the only effect of a pure command is its response. -/
theorem pureReadsFrame : Obligations.PureReadsFrame := by
  intro i s t hpure h
  cases exec_effect h with
  | response st d hd => rfl
  | seeded | extracted | twisted | begun | pushed => cases hpure
  | advanced current src d hi => obtain rfl | rfl := hi <;> cases hpure

/-- Settles O54: an extraction writes the array by a twist only, which leaves the slots from 312 on; a seed lists the
slots below 340 only. -/
theorem mtCommandsFrame : Obligations.MtCommandsFrame := by
  intro s t
  constructor
  · intro h
    cases exec_effect h with
    | response st d hd => exact ⟨rfl, fun _ => rfl, fun _ _ => rfl⟩
    | extracted d hcur => exact ⟨rfl, fun _ => rfl, fun _ _ => rfl⟩
    | twisted m d hcur hm => exact ⟨rfl, fun hne => absurd hcur hne, fun _ ha => mtTwistFn_dead hm ha⟩
    | advanced current src d hi => obtain hi | hi := hi <;> cases hi
  · intro seed h
    cases h
    refine ⟨rfl, fun hbelow a ha => ?_⟩
    exact (Memory.read?_below (mtSeedFn_below seed) ha).trans (Memory.read?_below hbelow ha).symm

/-- Settles O55: `TG.PUSH` writes the slot of the load pointer, an advance that of the cursor. -/
theorem tgCommandsFrame : Obligations.TgCommandsFrame := by
  intro s t
  refine ⟨?_, ?_, ?_⟩
  · intro tap twist h
    cases h
    rfl
  · intro word h
    obtain ⟨-, rfl⟩ | ⟨hphase, -, rfl⟩ := exec_tgPush_next_iff.1 h
    · exact ⟨rfl, fun _ _ => rfl⟩
    · exact ⟨rfl, fun a ha => Memory.read?_write_ne _ _ (ha.resolve_right (absurd hphase))⟩
  · intro i hi h
    cases exec_effect h with
    | response st d hd => exact ⟨rfl, fun _ _ => rfl⟩
    | advanced current src d _ hphase =>
      exact ⟨rfl, fun a ha => Memory.read?_write_ne _ _ (ha.resolve_right (absurd hphase))⟩
    | seeded | extracted | twisted | begun | pushed => obtain hi | hi := hi <;> cases hi

/-! ## The tap -/

theorem Effect.keeps_tgTap (he : Effect s i t) (hi : ∀ tap twist, i ≠ .tgBegin tap twist) : t.tgTap = s.tgTap := by
  cases he with
  | begun tap twist => exact absurd rfl (hi tap twist)
  | response | seeded | extracted | twisted | pushed | advanced => rfl

/-- The source index sees the tap's residue only (R120). -/
theorem tgSrcIndex_congr {tap : BitVec 16} (htap : tap.toNat % s.cfg.tgN = s.tgTap.toNat % s.cfg.tgN) :
    tgSrcIndex { s with tgTap := tap } = tgSrcIndex s := by
  unfold tgSrcIndex
  rw [Nat.add_mod, htap, ← Nat.add_mod]

/-- A TG command but `TG.BEGIN` does the same with every tap of the same residue (R27). -/
theorem exec_tg_tap_congr (hi : i.isTg = true) (hb : ∀ tap twist, i ≠ .tgBegin tap twist) (h : exec i s = .next t)
    {tap : BitVec 16} (htap : tap.toNat % s.cfg.tgN = s.tgTap.toNat % s.cfg.tgN) :
    exec i { s with tgTap := tap } = .next { t with tgTap := tap } := by
  have hsrc := tgSrcIndex_congr htap
  cases i with
  | tgBegin tap twist => exact absurd rfl (hb tap twist)
  | tgPush word =>
    rw [exec_tgPush_next_iff] at h ⊢
    rcases h with ⟨h1, rfl⟩ | ⟨h1, h2, rfl⟩
    · exact .inl ⟨h1, rfl⟩
    · exact .inr ⟨h1, h2, rfl⟩
  | tgOutput =>
    rw [exec_tgOutput_next_iff] at h ⊢
    rcases h with ⟨h1, rfl⟩ | ⟨h1, h2, w, h3, rfl⟩
    · exact .inl ⟨h1, rfl⟩
    · exact .inr ⟨h1, h2, w, h3, rfl⟩
  | tgAdvance =>
    rw [exec_tgAdvance_next_iff, hsrc]
    rcases exec_tgAdvance_next_iff.1 h with ⟨h1, rfl⟩ | ⟨h1, h2, current, src, h3, h4, rfl⟩
    · exact .inl ⟨h1, rfl⟩
    · exact .inr ⟨h1, h2, current, src, h3, h4, rfl⟩
  | tgNext =>
    rw [exec_tgNext_next_iff, hsrc]
    rcases exec_tgNext_next_iff.1 h with ⟨h1, rfl⟩ | ⟨h1, h2, current, src, h3, h4, rfl⟩
    · exact .inl ⟨h1, rfl⟩
    · exact .inr ⟨h1, h2, current, src, h3, h4, rfl⟩
  | tgRdword idx =>
    rw [exec_tgRdword_next_iff] at h ⊢
    rcases h with ⟨h1, rfl⟩ | ⟨h1, h2, rfl⟩ | ⟨h1, h2, w, h3, rfl⟩
    · exact .inl ⟨h1, rfl⟩
    · exact .inr (.inl ⟨h1, h2, rfl⟩)
    · exact .inr (.inr ⟨h1, h2, w, h3, rfl⟩)
  | nop | mtSeed _ | mtExtract | mtRdword _ | rdreg _ => cases hi

/-- Settles O33: the tap is read by the source index alone, which takes it modulo `TG_N`. -/
theorem tapActsModuloTheLength : Obligations.TapActsModuloTheLength :=
  fun _ _ _ hb h => ⟨(exec_effect h).keeps_tgTap hb, fun hi _ htap => exec_tg_tap_congr hi hb h htap⟩

end Sys2Proof.Machine
end

section
/-!
Construction (10_state.md R44, 41_tgfsr.md R121, R122): the TG array and the state after a whole load.
-/

namespace Sys2Proof.Machine

variable {s : State} {cfg : Config} {ws : List Word}

/-- The words `ws`, truncated, written one after the other from slot `p` on (R122). -/
def Memory.load (cfg : Config) (m : Memory) (p : Nat) : List Word → Memory
  | [] => m
  | w :: ws => Memory.load cfg (m.write p (truncTG cfg w)) (p + 1) ws

theorem Memory.read?_load (m : Memory) (p : Nat) (ws : List Word) (k : Nat) :
    (m.load cfg p ws).read? k =
      if p ≤ k ∧ k < p + ws.length then ws[k - p]?.map (truncTG cfg) else m.read? k := by
  induction ws generalizing m p with
  | nil => exact (if_neg (by simp)).symm
  | cons w ws ih =>
    rw [Memory.load, ih, List.length_cons, Memory.read?_write]
    by_cases hk : k = p
    · subst hk
      simp
    · by_cases hin : p + 1 ≤ k ∧ k < p + 1 + ws.length
      · rw [if_pos hin, if_pos (by omega), show k - p = k - (p + 1) + 1 by omega, List.getElem?_cons_succ]
      · rw [if_neg hin, if_neg hk, if_neg (by omega)]

/-- A load from slot 0 holds the words loaded. -/
theorem Memory.read?_load_zero {m : Memory} {k : Nat} {w : Word} (hw : ws[k]? = some w) :
    (m.load cfg 0 ws).read? k = some (truncTG cfg w) := by
  have hk : k < ws.length := (List.getElem?_eq_some_iff.1 hw).1
  rw [Memory.read?_load, if_pos (by omega), Nat.sub_zero, hw]
  rfl

theorem Memory.full_load_zero (m : Memory) : (m.load cfg 0 ws).full ws.length :=
  fun _ hk => ⟨_, Memory.read?_load_zero (List.getElem?_eq_getElem hk)⟩

theorem Memory.wf_load {m : Memory} (h : m.wf) (p : Nat) : (m.load cfg p ws).wf := by
  induction ws generalizing m p with
  | nil => exact h
  | cons w ws ih => exact ih (Memory.wf_write h p _) (p + 1)

/-- A load of the whole range leaves nothing of the array before it. -/
theorem Memory.load_eq_of_below {m m' : Memory} (hwf : m.wf) (hwf' : m'.wf) (hbelow : m.below ws.length)
    (hbelow' : m'.below ws.length) : m.load cfg 0 ws = m'.load cfg 0 ws := by
  refine Memory.eq_of_read? (Memory.wf_load hwf 0) (Memory.wf_load hwf' 0) (fun k => ?_)
  rw [Memory.read?_load, Memory.read?_load]
  split
  · rfl
  · rw [Memory.read?_below hbelow (by omega), Memory.read?_below hbelow' (by omega)]

/-- The state after the pushes that complete a load with the words `ws` (R122). -/
def loaded (s : State) (ws : List Word) : State :=
  ((s.withTgs (s.tgs.load s.cfg s.tgLdptr.toNat ws)).withTgLoad (BitVec.ofNat 16 (s.tgLdptr.toNat + ws.length))
    phaseReady).respond .ok 0

/-- The last push of a load. -/
theorem pushed_eq_loaded (hlast : s.tgLdptr.toNat + 1 = s.cfg.tgN) (w : Word) : pushed s w = loaded s [w] := by
  unfold pushed
  rw [if_pos hlast]
  rfl

/-- Any other push of a load. -/
theorem loaded_pushed (hptr : s.tgLdptr.toNat < s.cfg.tgN) (w : Word) (ws : List Word) :
    loaded (pushed s w) ws = loaded s (w :: ws) := by
  unfold loaded
  rw [pushed_tgLdptr, tgLdptr_next_toNat hptr, List.length_cons, Nat.add_assoc, Nat.add_comm 1]
  rfl

/-- As many pushes as the load still wants complete it. -/
theorem execTrace_pushes (hload : s.tgPhase = phaseLoading) (hne : ws ≠ [])
    (hlen : s.tgLdptr.toNat + ws.length = s.cfg.tgN) :
    execTrace (ws.map .tgPush) s = .next (List.replicate ws.length (packResponse .ok 0), loaded s ws) := by
  induction ws generalizing s with
  | nil => exact absurd rfl hne
  | cons w ws ih =>
    rw [List.length_cons] at hlen
    have hptr : s.tgLdptr.toNat < s.cfg.tgN := by omega
    have hpush : exec (.tgPush w) s = .next (pushed s w) := exec_tgPush_next_iff.2 (.inr ⟨hload, hptr, rfl⟩)
    refine execTrace_cons_next_iff.2 ⟨_, List.replicate ws.length (packResponse .ok 0), hpush, ?_, rfl⟩
    by_cases hws : ws = []
    · subst hws
      rw [pushed_eq_loaded hlen]
      rfl
    · have hpos := List.length_pos_of_ne_nil hws
      rw [← loaded_pushed hptr]
      refine ih ?_ hws ?_
      · rw [pushed_tgPhase, if_neg (by omega), hload]
      · rw [pushed_tgLdptr, tgLdptr_next_toNat hptr, pushed_cfg]
        omega

/-- The state after a whole construction (R44). -/
def constructed (s : State) (tap : Index) (twist : Word) (ws : List Word) : State :=
  loaded ((begun s tap twist).respond .ok 0) ws

/-- A construction goes through from every state (R44). -/
theorem execTrace_construction (tap : Index) (twist : Word) (hlen : ws.length = s.cfg.tgN) :
    execTrace (.tgBegin tap twist :: ws.map .tgPush) s =
      .next (List.replicate (ws.length + 1) (packResponse .ok 0), constructed s tap twist ws) := by
  have hne : ws ≠ [] := List.ne_nil_of_length_pos (hlen ▸ s.cfg.tgN_pos)
  have hpushes := execTrace_pushes (s := (begun s tap twist).respond .ok 0) rfl hne ((Nat.zero_add _).trans hlen)
  exact execTrace_cons_next_iff.2 ⟨_, _, exec_tgBegin_eq_begun tap twist, hpushes, rfl⟩

theorem constructed_tgReady (tap : Index) (twist : Word) (hlen : ws.length = s.cfg.tgN) :
    (constructed s tap twist ws).tgReady :=
  ⟨rfl, hlen ▸ Memory.full_load_zero s.tgs, s.cfg.tgN_pos⟩

/-- Construction leaves nothing of the TG state before it but the synthesis parameters (R44). -/
theorem constructed_sameTg {s' : State} (tap : Index) (twist : Word) (hcfg : s'.cfg = s.cfg)
    (htgs : s.tgs.load s.cfg 0 ws = s'.tgs.load s.cfg 0 ws) :
    (constructed s tap twist ws).sameTg (constructed s' tap twist ws) := by
  refine ⟨hcfg.symm, ?_, rfl, rfl, ?_, rfl, rfl⟩
  · show s.tgs.load s.cfg 0 ws = s'.tgs.load s'.cfg 0 ws
    rw [htgs, hcfg]
  · show truncTG s.cfg twist = truncTG s'.cfg twist
    rw [hcfg]

/-- Settles O27: a seed writes the whole MT state, and a construction leaves `constructed`, which holds nothing of the TG
state before it when the arrays are canonical and in range. -/
theorem constructionReplacesTheEngine : Obligations.ConstructionReplacesTheEngine := by
  constructor
  · intro seed s s'
    exact ⟨_, _, exec_mtSeed seed, exec_mtSeed seed, ⟨rfl, rfl⟩, ⟨Nat.le_refl 312, mtSeedFn_full seed⟩⟩
  · intro tap twist ws s hlen
    refine ⟨_, _, execTrace_construction tap twist hlen, constructed_tgReady tap twist hlen, rfl, rfl, rfl,
      fun k w hw => Memory.read?_load_zero hw, ?_⟩
    intro s' hcfg hwf hwf' hbelow hbelow'
    rw [← hlen] at hbelow hbelow'
    exact ⟨_, execTrace_construction tap twist (hcfg ▸ hlen),
      constructed_sameTg tap twist hcfg (Memory.load_eq_of_below hwf hwf' hbelow hbelow')⟩

end Sys2Proof.Machine
end

section
/-!
The array primitives on an array of `n` slots: read after write, frame, canonical form and the fault (20_memory.md R59).
-/

namespace Sys2Proof.Machine

variable {n i : Nat}

theorem writeSlot_eq_ok (h : i < n) (m : Memory) (v : Word) : writeSlot n m i v = .ok (m.write i v) := if_pos h

theorem writeSlot_eq_error (h : n ≤ i) (m : Memory) (v : Word) : writeSlot n m i v = .error .indexOutOfRange :=
  if_neg (Nat.not_lt.2 h)

theorem readSlot_eq_error (h : n ≤ i) (m : Memory) : readSlot n m i = .error .indexOutOfRange :=
  if_neg (Nat.not_lt.2 h)

theorem readSlot_write_same (h : i < n) (m : Memory) (v : Word) : readSlot n (m.write i v) i = .ok v :=
  readSlot_ok_iff.2 ⟨h, Memory.read?_write_same m i v⟩

/-- Another slot reads as before, and faults as before. -/
theorem readSlot_write_ne {k : Nat} (h : k ≠ i) (m : Memory) (v : Word) :
    readSlot n (m.write i v) k = readSlot n m k := by
  unfold readSlot
  rw [Memory.read?_write_ne m v h]

/-- All that a write in range does: both arrays of the block are instances. -/
theorem writeSlot_spec (h : i < n) (m : Memory) (v : Word) :
    ∃ m', writeSlot n m i v = .ok m' ∧ readSlot n m' i = .ok v ∧ (m.wf → m'.wf) ∧
      ∀ k, k ≠ i → readSlot n m' k = readSlot n m k :=
  ⟨m.write i v, writeSlot_eq_ok h m v, readSlot_write_same h m v, fun hm => Memory.wf_write hm i v,
    fun _ hk => readSlot_write_ne hk m v⟩

/-- Settles O56: each array's primitives are those of an array of 340 and of `TG_N` slots, the TG word truncated first. -/
theorem arrayPrimitives : Obligations.ArrayPrimitives := by
  intro m i v cfg
  refine ⟨fun hi => ?mt, fun hi => ?tg, fun hi => ?mtFault, fun hi => ?tgFault⟩
  case mt => exact writeSlot_spec hi m v
  case tg => exact writeSlot_spec hi m (truncTG cfg v)
  case mtFault => exact ⟨readSlot_eq_error hi m, writeSlot_eq_error hi m v⟩
  case tgFault => exact ⟨readSlot_eq_error hi m, writeSlot_eq_error hi m (truncTG cfg v)⟩

end Sys2Proof.Machine
end

section
/-!
The decoder and the encoder (30_encoding.md R69, R70, R73, R74, R77, R79): a word decodes to a command exactly when its
fields are that command's, and to some command exactly when its fields are well-formed.
-/

namespace Sys2Proof

open Sys2Proof.Machine

variable {f : Fields} {i j : Instr} {w : CmdWord} {rsvd : BitVec 12} {op : BitVec 4} {idx : Index} {data : Word} {n : Nat}

/-! ## The three kinds of row of R70 -/

theorem decodeBare_ok_iff : decodeBare ⟨rsvd, op, idx, data⟩ j = .ok i ↔ idx = 0 ∧ data = 0 ∧ i = j := by
  grind [decodeBare]

theorem decodeIdx_ok_iff {c : Index → Instr} :
    decodeIdx ⟨rsvd, op, idx, data⟩ c = .ok i ↔ data = 0 ∧ i = c idx := by
  grind [decodeIdx]

theorem decodeData_ok_iff {c : Word → Instr} :
    decodeData ⟨rsvd, op, idx, data⟩ c = .ok i ↔ idx = 0 ∧ i = c data := by
  grind [decodeData]

theorem op_eq_ofNat (h : op.toNat = n) : op = BitVec.ofNat 4 n := by
  rw [← h, BitVec.ofNat_toNat, BitVec.setWidth_eq]

/-! ## The fields of a command -/

/-- The fields of a command decode to it, a row of R69 at a time. -/
theorem decodeFields_fields (i : Instr) : decodeFields i.fields = .ok i := by
  cases i <;> rfl

/-- The fields that decode to a command are its own: no bit of them is ignored (R70, R77). The rows go together by the
fields they use: neither, `DATA`, `IDX`, both, and the reserved opcodes. -/
theorem decodeFields_ok_iff : decodeFields f = .ok i ↔ f = i.fields := by
  refine ⟨fun h => ?_, fun h => h ▸ decodeFields_fields i⟩
  obtain ⟨rsvd, op, idx, data⟩ := f
  unfold decodeFields at h
  split at h
  case isTrue => cases h
  case isFalse hrsvd =>
    obtain rfl : rsvd = 0 := not_not.1 hrsvd
    split at h
    case h_1 hop | h_3 hop | h_7 hop | h_8 hop | h_9 hop =>
      obtain rfl := op_eq_ofNat hop
      obtain ⟨rfl, rfl, rfl⟩ := decodeBare_ok_iff.1 h
      rfl
    case h_2 hop | h_6 hop =>
      obtain rfl := op_eq_ofNat hop
      obtain ⟨rfl, rfl⟩ := decodeData_ok_iff.1 h
      rfl
    case h_4 hop | h_10 hop | h_11 hop =>
      obtain rfl := op_eq_ofNat hop
      obtain ⟨rfl, rfl⟩ := decodeIdx_ok_iff.1 h
      rfl
    case h_5 hop =>
      obtain rfl := op_eq_ofNat hop
      cases h
      rfl
    case h_12 => cases h

theorem decode_ok_iff : decode w = .ok i ↔ fieldsOf w = i.fields := decodeFields_ok_iff

@[simp] theorem fieldsOf_encode (i : Instr) : fieldsOf (encode i) = i.fields := fieldsOf_packFields i.fields

@[simp] theorem decode_encode (i : Instr) : decode (encode i) = .ok i := decode_ok_iff.2 (fieldsOf_encode i)

/-- Settles O2: the fields of a command's word are the command's. -/
theorem decodeOfEncodeIsTheCommand : Obligations.DecodeOfEncodeIsTheCommand := decode_encode

/-- Settles O3: the word is made of its fields, which are those of the command it decodes to. -/
theorem encodeOfDecodeIsTheWord : Obligations.EncodeOfDecodeIsTheWord := by
  intro w i h
  calc encode i
    _ = packFields (fieldsOf w) := congrArg packFields (decode_ok_iff.1 h).symm
    _ = w := packFields_fieldsOf w

/-! ## Well-formed fields -/

theorem wellFormed_iff :
    f.wellFormed = true ↔ f.rsvd = 0 ∧ f.op.toNat < 0xB ∧ (usesIdx f.op = true ∨ f.idx = 0) ∧
      (usesData f.op = true ∨ f.data = 0) := by
  simp [Fields.wellFormed, and_assoc]

theorem fields_wellFormed (i : Instr) : i.fields.wellFormed = true := by
  cases i <;> rfl

/-- Well-formed fields decode: each opcode below 0xB has its row, and the fields that the row leaves unused are 0. -/
theorem exists_decodeFields_ok (h : f.wellFormed = true) : ∃ i, decodeFields f = .ok i := by
  obtain ⟨rsvd, op, idx, data⟩ := f
  obtain ⟨hrsvd, hop, hidx, hdata⟩ := wellFormed_iff.1 h
  simp only at hop hidx hdata
  unfold decodeFields
  dsimp only
  rw [if_neg (not_not.2 hrsvd)]
  split
  case h_1 hrow | h_3 hrow | h_7 hrow | h_8 hrow | h_9 hrow =>
    obtain rfl := op_eq_ofNat hrow
    exact ⟨_, decodeBare_ok_iff.2 ⟨hidx.resolve_left (by decide), hdata.resolve_left (by decide), rfl⟩⟩
  case h_2 hrow | h_6 hrow =>
    obtain rfl := op_eq_ofNat hrow
    exact ⟨_, decodeData_ok_iff.2 ⟨hidx.resolve_left (by decide), rfl⟩⟩
  case h_4 hrow | h_10 hrow | h_11 hrow =>
    obtain rfl := op_eq_ofNat hrow
    exact ⟨_, decodeIdx_ok_iff.2 ⟨hdata.resolve_left (by decide), rfl⟩⟩
  case h_5 => exact ⟨_, rfl⟩
  case h_12 =>
    exfalso
    grind

theorem exists_decode_ok_iff : (∃ i, decode w = .ok i) ↔ (fieldsOf w).wellFormed = true := by
  refine ⟨?_, exists_decodeFields_ok⟩
  rintro ⟨i, hi⟩
  rw [decode_ok_iff.1 hi]
  exact fields_wellFormed i

/-- Settles O4: the fields of a command are well-formed, and well-formed fields decode. -/
theorem legalWordsAreTheDecodableOnes : Obligations.LegalWordsAreTheDecodableOnes := fun _ => exists_decode_ok_iff

/-! ## The opcode table -/

theorem exists_decode_error (h : ¬ (fieldsOf w).wellFormed = true) : ∃ e, decode w = .error e := by
  cases hw : decode w with
  | ok i => exact absurd (exists_decode_ok_iff.1 ⟨i, hw⟩) h
  | error e => exact ⟨e, rfl⟩

/-- R70: the opcodes whose `IDX` must be 0. -/
theorem usesIdx_eq_false : op.toNat ∈ [0x0, 0x1, 0x2, 0x5, 0x6, 0x7, 0x8] → usesIdx op = false := by
  revert op
  decide

/-- R70: the opcodes whose `DATA` must be 0. -/
theorem usesData_eq_false : op.toNat ∈ [0x0, 0x2, 0x3, 0x6, 0x7, 0x8, 0x9, 0xA] → usesData op = false := by
  revert op
  decide

/-- The fields of a word without reserved bits, by its opcode (R65). -/
theorem fieldsOf_eq (hrsvd : w.extractLsb' 84 12 = 0) (hop : (w.extractLsb' 80 4).toNat = n) :
    fieldsOf w = ⟨0, BitVec.ofNat 4 n, w.extractLsb' 64 16, w.extractLsb' 0 64⟩ := by
  rw [← hrsvd, ← op_eq_ofNat hop]
  rfl

/-- A word without reserved bits decodes to the command whose fields are its own. -/
theorem decode_of_fields (hrsvd : w.extractLsb' 84 12 = 0) (hop : (w.extractLsb' 80 4).toNat = n)
    (hidx : w.extractLsb' 64 16 = idx) (hdata : w.extractLsb' 0 64 = data)
    (hi : i.fields = ⟨0, BitVec.ofNat 4 n, idx, data⟩) : decode w = .ok i := by
  subst hidx hdata
  exact decode_ok_iff.2 ((fieldsOf_eq hrsvd hop).trans hi.symm)

theorem acceptCommand_error_eq_answeredIllegal {e : Illegal} {s : State} (h : decode w = .error e) :
    acceptCommand w s = .next s.answeredIllegal := acceptCommand_error h

/-- Settles O1: a word with a field that breaks R70, R73 or R74 has no well-formed fields, and any other word has the
fields of its row's command. -/
theorem decoderFollowsTheOpcodeTable : Obligations.DecoderFollowsTheOpcodeTable := by
  intro w rsvd op idx data
  refine ⟨fun hrsvd => ?rsvd, fun hop => ?reserved, fun hop hidx => ?idx, fun hop hdata => ?data, fun hrsvd => ?rows,
    fun e s h => acceptCommand_error_eq_answeredIllegal h⟩
  case rsvd =>
    refine exists_decode_error fun h => ?_
    obtain ⟨hzero, -⟩ := wellFormed_iff.1 h
    exact hrsvd hzero
  case reserved =>
    refine exists_decode_error fun h => ?_
    obtain ⟨-, hlt, -⟩ := wellFormed_iff.1 h
    exact hlt.not_ge hop
  case idx =>
    refine exists_decode_error fun h => ?_
    obtain ⟨-, -, huses | hzero, -⟩ := wellFormed_iff.1 h
    · exact Bool.false_ne_true ((usesIdx_eq_false hop).symm.trans huses)
    · exact hidx hzero
  case data =>
    refine exists_decode_error fun h => ?_
    obtain ⟨-, -, -, huses | hzero⟩ := wellFormed_iff.1 h
    · exact Bool.false_ne_true ((usesData_eq_false hop).symm.trans huses)
    · exact hdata hzero
  case rows =>
    exact ⟨fun hop hidx hdata => decode_of_fields hrsvd hop hidx hdata rfl,
      fun hop hidx => decode_of_fields hrsvd hop hidx rfl rfl,
      fun hop hidx hdata => decode_of_fields hrsvd hop hidx hdata rfl,
      fun hop hdata => decode_of_fields hrsvd hop rfl hdata rfl,
      fun hop => decode_of_fields hrsvd hop rfl rfl rfl,
      fun hop hidx => decode_of_fields hrsvd hop hidx rfl rfl,
      fun hop hidx hdata => decode_of_fields hrsvd hop hidx hdata rfl,
      fun hop hidx hdata => decode_of_fields hrsvd hop hidx hdata rfl,
      fun hop hidx hdata => decode_of_fields hrsvd hop hidx hdata rfl,
      fun hop hdata => decode_of_fields hrsvd hop rfl hdata rfl,
      fun hop hdata => decode_of_fields hrsvd hop rfl hdata rfl⟩

/-! ## The encoder's formula -/

/-- Without reserved bits a word's number is that of its other 84 bits. -/
theorem packFields_toNat (hrsvd : f.rsvd = 0) : (packFields f).toNat = (f.op ++ f.idx ++ f.data).toNat := by
  calc (packFields f).toNat
    _ = (f.rsvd ++ f.op ++ f.idx).toNat <<< 64 ||| f.data.toNat :=
        BitVec.toNat_append (f.rsvd ++ f.op ++ f.idx) f.data
    _ = (f.op ++ f.idx).toNat <<< 64 ||| f.data.toNat := by
        simp only [BitVec.toNat_append, hrsvd]
        simp
    _ = (f.op ++ f.idx ++ f.data).toNat := (BitVec.toNat_append (f.op ++ f.idx) f.data).symm

/-- Settles O6: without reserved bits the number is that of 84 bits, whose fields stand at 80, 64 and 0. -/
theorem encodedWordIsOpIdxData : Obligations.EncodedWordIsOpIdxData := by
  intro i
  obtain ⟨hrsvd, -⟩ := wellFormed_iff.1 (fields_wellFormed i)
  unfold encode
  rw [packFields_toNat hrsvd]
  refine ⟨?_, BitVec.isLt _⟩
  simp only [BitVec.toNat_append, Nat.shiftLeft_or_distrib, ← Nat.shiftLeft_add]

/-- Settles O5: each word is evaluated. -/
theorem sampleWordsDecode : Obligations.SampleWordsDecode := by
  unfold Obligations.SampleWordsDecode
  decide

end Sys2Proof
end

section
/-!
The response of a command (30_encoding.md R66, R78) and one command at the port: accepted, presented and taken under any
host that keeps its duty (30_encoding.md R67, R68; 70_reset_and_hazards.md R186).
-/

namespace Sys2Proof.Machine

variable {i : Instr} {s t u : State} {w : CmdWord} {p : PortIn} {ps : List PortIn} {rs : List RspWord}

/-! ## The response -/

/-- Settles O7: the fields of the concatenation, and the codes by definition. -/
theorem responseWordLayout : Obligations.ResponseWordLayout := fun st d =>
  ⟨rspReserved_pack st d, rspStatus_pack st d, rspData_pack st d, rfl, rfl, rfl, rfl, rfl⟩

theorem exec_tgPush_rspData {word : Word} (h : exec (.tgPush word) s = .next t) : rspData t.rspBuf = 0 := by
  obtain ⟨-, rfl⟩ | ⟨-, -, rfl⟩ := exec_tgPush_next_iff.1 h
  · exact rspData_pack .errSeq 0
  · exact rspData_pack .ok 0

theorem exec_tgAdvance_rspData (h : exec .tgAdvance s = .next t) : rspData t.rspBuf = 0 := by
  obtain ⟨-, rfl⟩ | ⟨-, -, current, src, -, -, rfl⟩ := exec_tgAdvance_next_iff.1 h
  · exact rspData_pack .errUninit 0
  · exact rspData_pack .ok 0

theorem exec_error_rspData (h : exec i s = .next t) (hst : rspStatus t.rspBuf ≠ 0) : rspData t.rspBuf = 0 := by
  obtain ⟨-, -, hzero⟩ := (exec_effect h).rspLegal
  exact hzero hst

/-- Settles O35: a command without a value answers 0 whether it succeeds or not, a legal response carries 0 with an error,
and an ILLEGAL word is answered `ERR_ILLEGAL`. -/
theorem noValueMeansDataZero : Obligations.NoValueMeansDataZero := by
  constructor
  · rintro i s t h (rfl | ⟨seed, rfl⟩ | ⟨tap, twist, rfl⟩ | ⟨word, rfl⟩ | rfl | hst)
    case inl | inr.inl | inr.inr.inl =>
      cases h
      exact rspData_pack .ok 0
    · exact exec_tgPush_rspData h
    · exact exec_tgAdvance_rspData h
    · exact exec_error_rspData h hst
  · intro w e s h
    exact ⟨_, acceptCommand_error h, rspStatus_pack .errIllegal 0, rspData_pack .errIllegal 0⟩

/-! ## One command at the port -/

/-- An idle block accepts the word offered by a steady host (R67). -/
theorem step_idle_offer (hrst : s.portIn.rst = false) (hvalid : s.portIn.cmdValid = true) (hbusy : s.ifBusy = false)
    (hsteady : hostSteady s.portIn s = true) : step s = acceptCommand s.portIn.cmdWord s.useInput := by
  simp [step, hostStep, portStep, hrst, hvalid, hbusy, hsteady]

/-- Settles O48: an idle block accepts the offer, the one that `withFetchWord` places too. -/
theorem stepRunsTheDecodedCommand : Obligations.StepRunsTheDecodedCommand := by
  intro s w i hw
  constructor
  · rintro hrst hvalid rfl hbusy hsteady
    rw [step_idle_offer hrst hvalid hbusy hsteady, acceptCommand_ok hw]
  · have hplaced : s.withFetchWord 96 w.toNat = s.offering w := by
      simp [State.withFetchWord, Nat.mod_eq_of_lt w.isLt]
    rw [hplaced, step_idle_offer (s := s.offering w) rfl rfl rfl rfl]
    exact acceptCommand_ok hw

/-- Settles O52: another word than the one remembered is no steady offer. -/
theorem changedCommandWordIsStuck : Obligations.ChangedCommandWordIsStuck := by
  intro s w hheld hrst hvalid hword
  have hsteady : hostSteady s.portIn s = false := by simp [hostSteady, hheld, hvalid, hword]
  exact step_unsteady hrst hsteady

theorem useInput_of_cmdReady (hin : s.inputs = p :: ps) (hready : cmdReady p s = true) :
    s.useInput = s.withPort s.ifBusy s.rspValid ps none s.taken := by
  simp [State.useInput, State.withPort, State.portIn, offerHeld, hin, hready]

/-- An idle block whose next input offers a word executes it whole and holds its response (R67, R68). -/
theorem step_accept (hin : s.inputs = p :: ps) (hbusy : s.ifBusy = false) (hheld : s.heldCmd = none)
    (hrst : p.rst = false) (hvalid : p.cmdValid = true) (h : execWord p.cmdWord s = .next u) :
    step s = .next (u.withPort true false ps none s.taken) := by
  have hport : s.portIn = p := by simp [State.portIn, hin]
  have hsteady : hostSteady s.portIn s = true := by simp [hostSteady, hheld]
  rw [step_idle_offer (hport ▸ hrst) (hport ▸ hvalid) hbusy hsteady, hport,
    useInput_of_cmdReady hin (by simp [cmdReady, hrst, hbusy]), acceptCommand_eq_execWord, execWord_next_withPort h]
  rfl

/-- A host that withdraws its offer, or makes none, leaves no word remembered. -/
theorem useInput_withPort (hvalid : p.cmdValid = false) (b v : Bool) :
    (s.withPort b v (p :: ps) none rs).useInput = s.withPort b v ps none rs := by
  simp [State.useInput, State.withPort, State.portIn, offerHeld, hvalid]

/-- The block presents the response outstanding, to a host that is ready or not (R67). -/
theorem step_presents (hrst : p.rst = false) (hvalid : p.cmdValid = false) :
    step (s.withPort true false (p :: ps) none rs) = .next (s.withPort true true ps none rs) :=
  step_next_iff.2 (.inr ⟨hrst, rfl, .inr (.inl ⟨rfl, rfl, by rw [useInput_withPort hvalid]; rfl⟩)⟩)

/-- A ready host takes the response presented (R67). -/
theorem step_takes (hrst : p.rst = false) (hvalid : p.cmdValid = false) (hready : p.rspReady = true) :
    step (s.withPort true true (p :: ps) none rs) = .next (s.withPort false false ps none (rs ++ [s.rspBuf])) :=
  step_next_iff.2 (.inr ⟨hrst, rfl, .inr (.inr (.inl ⟨rfl, rfl, hready, by rw [useInput_withPort hvalid]; rfl⟩))⟩)

/-- Settles O49: the word is accepted, its response presented, and the response taken. -/
theorem oneResponsePerCommand : Obligations.OneResponsePerCommand := by
  rintro s u w p1 p2 p3 rest hin hbusy hheld hrst1 hvalid1 rfl hrst2 hvalid2 hrst3 hvalid3 hready3 h
  calc Host.Core.run Sys2Proof.core 3 s
    _ = Host.Core.run Sys2Proof.core 2 (u.withPort true false (p2 :: p3 :: rest) none s.taken) :=
        core_run_succ (step_accept hin hbusy hheld hrst1 hvalid1 h)
    _ = Host.Core.run Sys2Proof.core 1 (u.withPort true true (p3 :: rest) none s.taken) :=
        core_run_succ (step_presents hrst2 hvalid2)
    _ = Host.Core.run Sys2Proof.core 0 (u.withPort false false rest none (s.taken ++ [u.rspBuf])) :=
        core_run_succ (step_takes hrst3 hvalid3 hready3)

end Sys2Proof.Machine
end

section
/-!
The assembler (30_encoding.md R79, R80): the words of lines followed by other statements, the repetition and `TG.LOAD`.
-/

namespace Sys2Proof.Machine

variable {cfg : Config} {l : Line} {ls : List Line} {ws acc : List CmdWord}

/-- Lines that assemble on their own give the same words inside any repetition and before any statements. -/
theorem assembleFrom_lines_append (h : assembleFrom cfg (ls.map AsmStmt.line) [] acc = some ws) (ss : List AsmStmt)
    (open_ : List (Nat × List CmdWord)) :
    assembleFrom cfg (ls.map AsmStmt.line ++ ss) open_ acc = assembleFrom cfg ss open_ ws := by
  induction ls generalizing acc with
  | nil =>
    cases h
    rfl
  | cons l ls ih =>
    simp only [List.map_cons, List.cons_append, assembleFrom] at h ⊢
    cases hl : assembleLine cfg l with
    | none => simp [hl] at h
    | some lineWs =>
      rw [hl] at h
      exact ih h

/-- Settles O57: the enclosed lines assemble to their words inside the repetition, which its end copies. -/
theorem assemblerRepeatCopiesTheLines : Obligations.AssemblerRepeatCopiesTheLines := by
  intro cfg k ls ws h
  calc assemble cfg (AsmStmt.repeatBegin k :: ls.map AsmStmt.line ++ [AsmStmt.repeatEnd])
    _ = assembleFrom cfg (ls.map AsmStmt.line ++ [AsmStmt.repeatEnd]) [(k, [])] [] := rfl
    _ = assembleFrom cfg [AsmStmt.repeatEnd] [(k, [])] ws := assembleFrom_lines_append h _ _
    _ = some (List.replicate k ws).flatten := rfl

theorem assemble_line (cfg : Config) (l : Line) : assemble cfg [.line l] = assembleLine cfg l := by
  unfold assemble assembleFrom
  cases assembleLine cfg l <;> rfl

theorem tgLoad_wellFormed_iff {tap twist : Nat} {words : List Nat} (htap : tap ≤ 65535) (htwist : twist < 2 ^ 64)
    (hwords : ∀ w ∈ words, w < 2 ^ 64) :
    (Line.tgLoad tap twist words).wellFormed cfg = true ↔ words.length = cfg.tgN := by
  have hfits : words.all fitsData = true := List.all_eq_true.2 fun w hw => decide_eq_true (hwords w hw)
  have htwistFits : fitsData twist = true := decide_eq_true htwist
  simp [Line.wellFormed, fitsIdx, htap, htwistFits, hfits]

/-- Settles O58: the line is well-formed exactly with `TG_N` words, and each word decodes to the command it encodes. -/
theorem assemblerExpandsTheLoad : Obligations.AssemblerExpandsTheLoad := by
  intro cfg tap twist words htap htwist hwords
  have hwf := tgLoad_wellFormed_iff (cfg := cfg) htap htwist hwords
  rw [assemble_line]
  unfold assembleLine
  refine ⟨fun hlen => ⟨_, if_pos (hwf.2 hlen), ?_⟩, fun hlen => if_neg fun h => hlen (hwf.1 h)⟩
  simp [lineWords, Function.comp_def]

end Sys2Proof.Machine
end

section
/-!
The command words that their opcode's row turns away (30_encoding.md R70, R74, R157).
-/

namespace Sys2Proof

open Sys2Proof.Machine

variable {w : CmdWord}

/-- A word with a nonzero bit in `RSVD` or in a field its opcode does not use is answered `ERR_ILLEGAL`. -/
theorem acceptCommand_of_field_nonzero
    (h : (fieldsOf w).rsvd ≠ 0 ∨ (usesIdx (fieldsOf w).op = false ∧ (fieldsOf w).idx ≠ 0) ∨
      (usesData (fieldsOf w).op = false ∧ (fieldsOf w).data ≠ 0)) (s : State) :
    acceptCommand w s = .next s.answeredIllegal := by
  have hbad : ¬ (fieldsOf w).wellFormed = true := by
    rw [wellFormed_iff]
    rintro ⟨hrsvd, -, hidx, hdata⟩
    rcases h with hne | ⟨huses, hne⟩ | ⟨huses, hne⟩
    · exact hne hrsvd
    · exact hne (hidx.resolve_left (Bool.eq_false_iff.1 huses))
    · exact hne (hdata.resolve_left (Bool.eq_false_iff.1 huses))
  obtain ⟨e, he⟩ := exists_decode_error hbad
  exact acceptCommand_error_eq_answeredIllegal he

end Sys2Proof
end

section
/-!
The MT engine's functions (40_mt19937_64.md): the tempering on integers (R93), the twist's reads (R91, R92) and repeated
twists.
-/

namespace Sys2Proof.Machine

variable {m m' : Memory} {n i k : Nat}

/-! ## Tempering -/

/-- Under a mask of the word's width a shift to the left loses no bit that the mask keeps. -/
theorem toNat_shiftLeft_and (y mask : Word) (n : Nat) :
    ((y <<< n) &&& mask).toNat = (y.toNat <<< n) &&& mask.toNat := by
  have hfits : (y.toNat <<< n) &&& mask.toNat < 2 ^ 64 := Nat.lt_of_le_of_lt Nat.and_le_right mask.isLt
  rw [BitVec.toNat_and, BitVec.toNat_shiftLeft, ← Nat.mod_eq_of_lt hfits, Nat.and_mod_two_pow,
    Nat.mod_eq_of_lt mask.isLt]

/-- Settles O12: each step of the words is that of the integers, the masks taking off what leaves 64 bits. -/
theorem temperSteps : Obligations.TemperSteps := by
  intro y y1 y2 y3
  have h : (mtTemperFn y).toNat = y3 ^^^ (y3 >>> 43) := by
    simp only [mtTemperFn, BitVec.toNat_xor, BitVec.toNat_ushiftRight, ↓toNat_shiftLeft_and, BitVec.toNat_and,
      BitVec.toNat_ofNat, Nat.reducePow, Nat.reduceMod, y1, y2, y3]
  rw [← h, Nat.mod_eq_of_lt (mtTemperFn y).isLt]

/-! ## One twist -/

/-- The loop body of R91, in its two forms. -/
theorem xor_twistMix (a b c : Word) : c ^^^ twistMix a b = twistBody a b c := by
  simp [twistBody, twistMix, mtUM, mtLM, mtA, BitVec.getLsbD, Nat.testBit_zero]

/-- Slot `j` as step `i` of the twist from `m` to `m'` reads it: the new word below `i`, where an earlier step wrote,
and the old one from `i` on (R92). -/
def readAtStep (m m' : Memory) (i j : Nat) : Option Word := if j < i then m'.read? j else m.read? j

theorem readAtStep_new {j : Nat} (h : j < i) : readAtStep m m' i j = m'.read? j := if_pos h

theorem readAtStep_old {j : Nat} (h : i ≤ j) : readAtStep m m' i j = m.read? j := if_neg (by omega)

/-- Twist steps write their own slots only. -/
theorem twistFrom_frame (h : twistFrom n i m = .ok m') (hk : k < i ∨ i + n ≤ k) : m'.read? k = m.read? k :=
  twistFrom_induction (P := fun x => x.read? k = m.read? k)
    (fun j x v hij hjn hx => (Memory.read?_write_ne x v (by omega)).trans hx) h rfl

/-- The word a twist leaves in slot `k` is the loop body on the three words that step `k` reads (R92). -/
theorem twistFrom_slot (h : twistFrom n i m = .ok m') (hik : i ≤ k) (hkn : k < i + n) :
    ∃ a b c, readAtStep m m' k k = some a ∧ readAtStep m m' k ((k + 1) % 312) = some b ∧
      readAtStep m m' k ((k + 156) % 312) = some c ∧ m'.read? k = some (twistBody a b c) := by
  induction n generalizing i m with
  | zero => omega
  | succ n ih =>
    obtain ⟨m1, hstep, hrest⟩ := bind_ok_iff.1 h
    obtain ⟨a, b, c, -, ha, hb, hc, rfl⟩ := twistStep_ok_iff.1 hstep
    rcases Nat.eq_or_lt_of_le hik with rfl | hlt
    · have hread (j : Nat) : readAtStep m m' i j = m.read? j := by
        unfold readAtStep
        split
        · exact twistFrom_frame h (by omega)
        · rfl
      refine ⟨a, b, c, (hread _).trans ha, (hread _).trans hb, (hread _).trans hc, ?_⟩
      rw [twistFrom_frame hrest (by omega), Memory.read?_write_same, xor_twistMix]
    · have hread (j : Nat) :
          readAtStep (m.write i (c ^^^ twistMix a b)) m' k j = readAtStep m m' k j := by
        unfold readAtStep
        split
        · rfl
        · exact Memory.read?_write_ne _ _ (by omega)
      simpa only [hread] using ih hrest hlt (by omega)

/-- Slot `k` after the whole twist, `j` and `l` the other two slots that step `k` reads (R91, R92). -/
theorem mtTwistFn_slot {a b c : Word} {j l : Nat} (h : mtTwistFn m = .ok m') (hk : k < 312) (hj : (k + 1) % 312 = j)
    (hl : (k + 156) % 312 = l) (ha : readAtStep m m' k k = some a) (hb : readAtStep m m' k j = some b)
    (hc : readAtStep m m' k l = some c) : m'.read? k = some (twistBody a b c) := by
  subst hj hl
  obtain ⟨a', b', c', ha', hb', hc', hslot⟩ := twistFrom_slot h (Nat.zero_le k) (by simpa [mtN] using hk)
  cases ha.symm.trans ha'
  cases hb.symm.trans hb'
  cases hc.symm.trans hc'
  exact hslot

/-- Settles O13: the twist goes through on full slots, and each index of R92's table says whether the slot read is below
the step's own. -/
theorem twistReadsTheRightVersions : Obligations.TwistReadsTheRightVersions := by
  intro m old hold
  have hfull : m.full 312 := fun k hk => ⟨old k, hold k hk⟩
  obtain ⟨m', hm'⟩ := mtTwistFn_full hfull
  choose! new hnew using mtTwistFn_keeps_full hm' hfull
  have hreadOld {i j : Nat} (hij : i ≤ j) (hj : j < 312) : readAtStep m m' i j = some (old j) :=
    (readAtStep_old hij).trans (hold j hj)
  have hreadNew {i j : Nat} (hji : j < i) (hj : j < 312) : readAtStep m m' i j = some (new j) :=
    (readAtStep_new hji).trans (hnew j hj)
  have hnewEq {i : Nat} {v : Word} (hi : i < 312) (h : m'.read? i = some v) : new i = v :=
    Option.some.inj ((hnew i hi).symm.trans h)
  refine ⟨m', new, hm', hnew, fun k hk => mtTwistFn_dead hm' hk, ?low, ?high, ?last⟩
  case low =>
    intro i hi
    have hi' : i < 312 := by omega
    exact hnewEq hi' (mtTwistFn_slot hm' hi' (Nat.mod_eq_of_lt (by omega)) (Nat.mod_eq_of_lt (by omega))
      (hreadOld (Nat.le_refl i) hi') (hreadOld (by omega) (by omega)) (hreadOld (by omega) (by omega)))
  case high =>
    intro i hlow hhigh
    have hi' : i < 312 := by omega
    have hback : (i + 156) % 312 = i - 156 := by omega
    exact hnewEq hi' (mtTwistFn_slot hm' hi' (Nat.mod_eq_of_lt (by omega)) hback
      (hreadOld (Nat.le_refl i) hi') (hreadOld (by omega) (by omega)) (hreadNew (by omega) (by omega)))
  case last =>
    exact hnewEq (by omega) (mtTwistFn_slot hm' (by omega) rfl rfl
      (hreadOld (Nat.le_refl 311) (by omega)) (hreadNew (by omega) (by omega)) (hreadNew (by omega) (by omega)))

/-- The twist of an array whose recurrence slots are 0 leaves them 0. -/
theorem mtTwistFn_zero (hm : ∀ k, k < 312 → m.read? k = some 0) (h : mtTwistFn m = .ok m') (hk : k < 312) :
    m'.read? k = some 0 := by
  have hbody : twistBody 0 0 0 = 0 := by decide
  obtain ⟨m1, new, hm1, hnew, -, hlow, hhigh, hlast⟩ := twistReadsTheRightVersions m (fun _ => 0) hm
  cases h.symm.trans hm1
  have hlow0 (i : Nat) (hi : i ≤ 155) : new i = 0 := (hlow i hi).trans hbody
  have hzero : new k = 0 := by
    rcases Nat.lt_or_ge k 156 with hk1 | hk1
    · exact hlow0 k (by omega)
    rcases Nat.lt_or_ge k 311 with hk2 | hk2
    · rw [hhigh k hk1 (by omega), hlow0 _ (by omega)]
      exact hbody
    · obtain rfl : k = 311 := by omega
      rw [hlast, hlow0 0 (by omega), hlow0 155 (by omega)]
      exact hbody
  rw [hnew k hk, hzero]

/-! ## Arrays that agree on the recurrence slots -/

/-- The arrays agree on slots 0 to 311, the ones of the recurrence (R21). -/
def Memory.sameLive (m m' : Memory) : Prop := ∀ k, k < 312 → m.read? k = m'.read? k

theorem Memory.sameLive_write (h : m.sameLive m') (i : Nat) (v : Word) : (m.write i v).sameLive (m'.write i v) := by
  intro k hk
  rw [Memory.read?_write, Memory.read?_write, h k hk]

/-- The twist reads the recurrence slots only (R101). -/
theorem twistFrom_sameLive {a : Memory} (hin : i + n ≤ 312) (hs : m.sameLive m') (h : twistFrom n i m = .ok a) :
    ∃ a', twistFrom n i m' = .ok a' ∧ a.sameLive a' := by
  induction n generalizing i m m' with
  | zero =>
    cases h
    exact ⟨m', rfl, hs⟩
  | succ n ih =>
    obtain ⟨m1, hstep, hrest⟩ := bind_ok_iff.1 h
    obtain ⟨wi, wj, wm, hi, hwi, hwj, hwm, rfl⟩ := twistStep_ok_iff.1 hstep
    rw [hs _ (by omega)] at hwi hwj hwm
    obtain ⟨a', ha', hsame⟩ := ih (by omega) (Memory.sameLive_write hs i _) hrest
    exact ⟨a', bind_ok_iff.2 ⟨_, twistStep_ok_iff.2 ⟨wi, wj, wm, hi, hwi, hwj, hwm, rfl⟩, ha'⟩, hsame⟩

/-! ## Twists one after the other -/

/-- One twist more, at the end. -/
theorem twistTimes_succ_last {a : Memory} (h : twistTimes n m = .ok m') (ha : mtTwistFn m' = .ok a) :
    twistTimes (n + 1) m = .ok a := by
  induction n generalizing m with
  | zero =>
    cases h
    exact bind_ok_iff.2 ⟨a, ha, rfl⟩
  | succ n ih =>
    obtain ⟨m1, hm1, hrest⟩ := bind_ok_iff.1 h
    exact bind_ok_iff.2 ⟨m1, hm1, ih hrest⟩

end Sys2Proof.Machine
end

section
/-!
The MT commands one at a time (40_mt19937_64.md R95 to R97, R101), and the words of their opcodes.
-/

namespace Sys2Proof.Machine

variable {i : Instr} {s s' t : State}

/-! ## `MT.SEED` -/

/-- A seeded slot after the first is the recurrence on the one before (R90). -/
theorem mtSeedFn_read?_succ (seed : Word) {k : Nat} (hk : k < 339) :
    ∃ p, (mtSeedFn seed).read? k = some p ∧ (mtSeedFn seed).read? (k + 1) = some (seedNext (k + 1) p) := by
  refine ⟨seedWordAt 0 seed k, ?_, ?_⟩
  · rw [mtSeedFn_read?, if_pos (by omega)]
  · rw [mtSeedFn_read?, if_pos (by omega), seedWordAt_succ, Nat.zero_add]

/-- Settles O11: the seeded array, slot by slot. -/
theorem mtSeedCommand : Obligations.MtSeedCommand := by
  intro seed s
  refine ⟨⟨mtSeedFn seed, exec_mtSeed seed, ?_, ?_, ?_⟩, fun w hop => ⟨?_, ?_⟩⟩
  · rw [mtSeedFn_read?, if_pos (by omega)]
    rfl
  · intro i hi hi'
    obtain ⟨k, rfl⟩ := Nat.exists_eq_add_of_le' hi
    exact mtSeedFn_read?_succ seed (by omega)
  · exact fun i hi => Memory.read?_below (mtSeedFn_below seed) hi
  · intro hrsvd hidx
    exact decode_of_fields hrsvd (congrArg BitVec.toNat hop) hidx rfl rfl
  · intro hbad
    exact acceptCommand_of_field_nonzero (hbad.imp_right fun hidx => .inl ⟨hop ▸ rfl, hidx⟩) s

/-! ## `MT.EXTRACT` -/

/-- Settles O14: the three cases of the cursor; the twist of zeros gives zeros, and 0 tempers to 0. -/
theorem mtExtractCommand : Obligations.MtExtractCommand := by
  intro s
  refine ⟨?unseeded, ?within, ?sentinel, ?zeros, fun w hop => ⟨?legal, ?illegal⟩⟩
  case unseeded => exact fun hcur => exec_mtExtract_next_iff.2 (.inl ⟨hcur, rfl⟩)
  case within =>
    intro w hcur hw
    exact ⟨s.mtCur + 1, by bv_omega, exec_mtExtract_next_iff.2 (.inr (.inl ⟨hcur, w, hw, rfl⟩))⟩
  case sentinel =>
    intro hcur hfull
    obtain ⟨m, hm⟩ := mtTwistFn_full hfull
    obtain ⟨w, hw⟩ := mtTwistFn_keeps_full hm hfull 0 (by omega)
    exact ⟨m, w, hm, hw, exec_mtExtract_next_iff.2 (.inr (.inr ⟨hcur, m, w, hm, hw, rfl⟩))⟩
  case zeros =>
    intro hcur hzero
    obtain ⟨m, hm⟩ := mtTwistFn_full fun k hk => ⟨0, hzero k hk⟩
    have hzero' (k : Nat) (hk : k < 312) : m.read? k = some 0 := mtTwistFn_zero hzero hm hk
    exact ⟨_, exec_mtExtract_next_iff.2 (.inr (.inr ⟨hcur, m, 0, hm, hzero' 0 (by omega), rfl⟩)), rfl, hzero'⟩
  case legal =>
    intro hrsvd hidx hdata
    exact decode_of_fields hrsvd (congrArg BitVec.toNat hop) hidx hdata rfl
  case illegal =>
    intro hbad
    exact acceptCommand_of_field_nonzero
      (hbad.imp_right (Or.imp (fun hidx => ⟨hop ▸ rfl, hidx⟩) fun hdata => ⟨hop ▸ rfl, hdata⟩)) s

/-- `MT.EXTRACT` does the same from states that agree on the cursor and on the recurrence slots (R101). -/
theorem exec_mtExtract_sameLive (hcur : s.mtCur = s'.mtCur) (hmtw : s.mtw.sameLive s'.mtw)
    (h : exec .mtExtract s = .next t) :
    ∃ t', exec .mtExtract s' = .next t' ∧ t'.rspBuf = t.rspBuf ∧ t'.mtCur = t.mtCur ∧ t.mtw.sameLive t'.mtw := by
  simp only [exec_mtExtract_next_iff, ← hcur]
  obtain ⟨hun, rfl⟩ | ⟨hlt, w, hw, rfl⟩ | ⟨heq, m, w, hm, hw, rfl⟩ := exec_mtExtract_next_iff.1 h
  · exact ⟨_, .inl ⟨hun, rfl⟩, rfl, hcur.symm, hmtw⟩
  · exact ⟨_, .inr (.inl ⟨hlt, w, hmtw _ hlt ▸ hw, rfl⟩), rfl, rfl, hmtw⟩
  · obtain ⟨m', hm', hsame⟩ := twistFrom_sameLive (by simp [mtN]) hmtw hm
    exact ⟨_, .inr (.inr ⟨heq, m', w, hm', hsame 0 (by omega) ▸ hw, rfl⟩), rfl, rfl, hsame⟩

/-- Settles O17: an extraction reads the recurrence slots only, and the one effect but a seed that writes the array is a
twist. -/
theorem deadSlotsNeverInfluenceOutputs : Obligations.DeadSlotsNeverInfluenceOutputs := by
  refine ⟨fun s s' t hcur hmtw h => exec_mtExtract_sameLive hcur hmtw h, ?_⟩
  intro i s t hi h k hk
  cases exec_effect h with
  | seeded seed => exact absurd rfl (hi seed)
  | twisted m d hcur hm => exact mtTwistFn_dead hm hk
  | response | extracted | begun | pushed | advanced => rfl

/-! ## `MT.RDWORD` -/

/-- Settles O15: the range is checked first, then the seeded state. -/
theorem mtRdwordCommand : Obligations.MtRdwordCommand := by
  intro idx s
  refine ⟨?range, ?unseeded, ?read, fun w hop => ⟨?legal, ?illegal⟩⟩
  case range => exact fun hidx => exec_mtRdword_next_iff.2 (.inl ⟨hidx, rfl⟩)
  case unseeded => exact fun hidx hcur => exec_mtRdword_next_iff.2 (.inr (.inl ⟨hidx, hcur, rfl⟩))
  case read => exact fun w hidx hcur hw => exec_mtRdword_next_iff.2 (.inr (.inr ⟨hidx, hcur, w, hw, rfl⟩))
  case legal =>
    intro hrsvd hdata
    exact decode_of_fields hrsvd (congrArg BitVec.toNat hop) rfl hdata rfl
  case illegal =>
    intro hbad
    exact acceptCommand_of_field_nonzero (hbad.imp_right fun hdata => .inr ⟨hop ▸ rfl, hdata⟩) s

end Sys2Proof.Machine
end

section
/-!
Sequences of commands after `MT.SEED` (40_mt19937_64.md R98, R103), with the commands of the other families among them.
-/

namespace Sys2Proof.Machine

variable {i : Instr} {s s' t t' : State} {cs : List Instr} {rs rs' : List RspWord} {seed : Word} {j k : Nat}

/-- The state after `MT.SEED` (R95). -/
def seeded (s : State) (seed : Word) : State := ((s.withMtw (mtSeedFn seed)).withMtCur 312).respond .ok 0

theorem exec_mtSeed_eq_seeded (s : State) (seed : Word) : exec (.mtSeed seed) s = .next (seeded s seed) := rfl

theorem seeded_mtSeeded (s : State) (seed : Word) : (seeded s seed).mtSeeded := ⟨Nat.le_refl 312, mtSeedFn_full seed⟩

theorem seeded_sameMt (s s' : State) (seed : Word) : (seeded s seed).sameMt (seeded s' seed) := ⟨rfl, rfl⟩

theorem execTrace_mtSeed_next_iff :
    execTrace (.mtSeed seed :: cs) s = .next (rs, t) ↔
      ∃ rs', execTrace cs (seeded s seed) = .next (rs', t) ∧ rs = packResponse .ok 0 :: rs' := by
  simp only [execTrace_cons_next_iff, exec_mtSeed_eq_seeded]
  constructor
  · rintro ⟨u, rs', hu, ht, rfl⟩
    cases hu
    exact ⟨rs', ht, rfl⟩
  · rintro ⟨rs', ht, rfl⟩
    exact ⟨_, rs', rfl, ht, rfl⟩

/-! ## Restart -/

theorem State.sameMt.symm (h : s.sameMt t) : t.sameMt s := ⟨h.1.symm, h.2.symm⟩

theorem State.sameMt.trans (h : s.sameMt s') (h' : s'.sameMt t) : s.sameMt t := ⟨h.1.trans h'.1, h.2.trans h'.2⟩

/-- A command of the other families leaves the MT engine (R2). -/
theorem exec_not_mt_sameMt (hi : i.isMt = false) (h : exec i s = .next t) : s.sameMt t := by
  cases exec_effect h with
  | seeded | extracted | twisted => cases hi
  | response | begun | pushed | advanced => exact ⟨rfl, rfl⟩

/-- An MT command answers on a seeded engine, which stays seeded (R42). -/
theorem exec_mt_seeded (hi : i.isMt = true) (h : s.mtSeeded) : ∃ t, exec i s = .next t ∧ t.mtSeeded := by
  cases i with
  | mtSeed seed => exact ⟨_, rfl, seeded_mtSeeded s seed⟩
  | mtExtract => exact exec_mtExtract_seeded h
  | mtRdword idx =>
    rcases Nat.lt_or_ge 339 idx.toNat with hidx | hidx
    · exact ⟨_, exec_mtRdword_next_iff.2 (.inl ⟨hidx, rfl⟩), h⟩
    · obtain ⟨hcur, hfull⟩ := h
      obtain ⟨w, hw⟩ := hfull idx.toNat (by omega)
      exact ⟨_, exec_mtRdword_next_iff.2 (.inr (.inr ⟨hidx, hcur, w, hw, rfl⟩)), hcur, hfull⟩
  | nop | tgBegin _ _ | tgPush _ | tgOutput | tgAdvance | tgNext | tgRdword _ | rdreg _ => cases hi

/-- A sequence of MT commands goes through on a seeded engine (R42). -/
theorem execTrace_mt_answers (hcs : ∀ i ∈ cs, i.isMt = true) (h : s.mtSeeded) :
    ∃ rs t, execTrace cs s = .next (rs, t) := by
  induction cs generalizing s with
  | nil => exact ⟨[], s, rfl⟩
  | cons i cs ih =>
    obtain ⟨hi, hcs⟩ := List.forall_mem_cons.1 hcs
    obtain ⟨u, hu, hseeded⟩ := exec_mt_seeded hi h
    obtain ⟨rs, t, ht⟩ := ih hcs hseeded
    exact ⟨_, t, execTrace_cons_next_iff.2 ⟨u, rs, hu, ht, rfl⟩⟩

/-- A sequence of MT commands makes the same responses from every state with the same MT engine. -/
theorem execTrace_mt_of_sameMt (hcs : ∀ i ∈ cs, i.isMt = true) (hs : s.sameMt s')
    (h : execTrace cs s = .next (rs, t)) : ∃ t', execTrace cs s' = .next (rs, t') := by
  induction cs generalizing s s' rs with
  | nil =>
    cases h
    exact ⟨s', rfl⟩
  | cons i cs ih =>
    obtain ⟨hi, hcs⟩ := List.forall_mem_cons.1 hcs
    obtain ⟨u, rs, hu, ht, rfl⟩ := execTrace_cons_next_iff.1 h
    obtain ⟨u', hu', hsame, hrsp⟩ := exec_mt_of_sameMt hi hu hs
    obtain ⟨t', ht'⟩ := ih hcs hsame ht
    exact ⟨t', execTrace_cons_next_iff.2 ⟨u', rs, hu', ht', by rw [hrsp]⟩⟩

/-- Of any sequence that answers from two states with the same MT engine, the responses to the MT commands are equal. -/
theorem execTrace_mt_responses (hs : s.sameMt s') (h : execTrace cs s = .next (rs, t))
    (h' : execTrace cs s' = .next (rs', t')) :
    (cs.zip rs).filter (fun p => p.1.isMt) = (cs.zip rs').filter (fun p => p.1.isMt) := by
  induction cs generalizing s s' rs rs' with
  | nil => rfl
  | cons i cs ih =>
    obtain ⟨u, rs, hu, ht, rfl⟩ := execTrace_cons_next_iff.1 h
    obtain ⟨u', rs', hu', ht', rfl⟩ := execTrace_cons_next_iff.1 h'
    cases hi : i.isMt with
    | true =>
      obtain ⟨v, hv, hsame, hrsp⟩ := exec_mt_of_sameMt hi hu hs
      cases hu'.symm.trans hv
      simp only [List.zip_cons_cons, List.filter_cons, hi, hrsp, ih hsame ht ht']
    | false =>
      have hsame : u.sameMt u' := ((exec_not_mt_sameMt hi hu).symm.trans hs).trans (exec_not_mt_sameMt hi hu')
      simp [hi, ih hsame ht ht']

/-- Settles O18: a seed leaves the same MT engine in both states. -/
theorem seedRestartsTheSequence : Obligations.SeedRestartsTheSequence := by
  intro seed s s' cs
  constructor
  · intro rs t rs' t' h h'
    obtain ⟨rs, ht, rfl⟩ := execTrace_mtSeed_next_iff.1 h
    obtain ⟨rs', ht', rfl⟩ := execTrace_mtSeed_next_iff.1 h'
    simp only [List.zip_cons_cons, List.filter_cons, execTrace_mt_responses (seeded_sameMt s s' seed) ht ht']
  · intro hcs
    obtain ⟨rs, t, ht⟩ := execTrace_mt_answers hcs (seeded_mtSeeded s seed)
    obtain ⟨t', ht'⟩ := execTrace_mt_of_sameMt hcs (seeded_sameMt s s' seed) ht
    exact ⟨_, t, t', execTrace_mtSeed_next_iff.2 ⟨rs, ht, rfl⟩, execTrace_mtSeed_next_iff.2 ⟨rs, ht', rfl⟩⟩

/-! ## The schedule of the twists -/

/-- `MT_CUR` after a seed and `k` extractions (R98). -/
def cursorAfter : Nat → Nat
  | 0 => 312
  | k + 1 => k % 312 + 1

theorem cursorAfter_succ (k : Nat) : cursorAfter (k + 1) = k % 312 + 1 := rfl

/-- The MT engine is where a seed and `k` extractions leave it (R98). -/
def State.Scheduled (seed : Word) (k : Nat) (s : State) : Prop :=
  twistTimes ((k + 311) / 312) (mtSeedFn seed) = .ok s.mtw ∧ s.mtCur.toNat = cursorAfter k

theorem seeded_scheduled (s : State) (seed : Word) : (seeded s seed).Scheduled seed 0 := ⟨rfl, rfl⟩

theorem State.Scheduled.of_sameMt (h : s.Scheduled seed k) (hs : s.sameMt t) : t.Scheduled seed k := by
  obtain ⟨hmtw, hcur⟩ := hs
  rwa [Scheduled, ← hmtw, ← hcur]

/-- Below the sentinel the next cursor needs no further twist. -/
theorem cursorAfter_lt (h : cursorAfter k < 312) :
    cursorAfter k = k % 312 ∧ (k + 1 + 311) / 312 = (k + 311) / 312 := by
  cases k with
  | zero => exact absurd h (by decide)
  | succ k =>
    rw [cursorAfter_succ] at h ⊢
    omega

/-- At the sentinel the next extraction is the first of another twist. -/
theorem cursorAfter_eq (h : cursorAfter k = 312) : k % 312 = 0 ∧ (k + 1 + 311) / 312 = (k + 311) / 312 + 1 := by
  cases k with
  | zero => decide
  | succ k =>
    rw [cursorAfter_succ] at h
    omega

theorem cursorAfter_le (k : Nat) : cursorAfter k ≤ 312 := by
  cases k with
  | zero => exact Nat.le_refl 312
  | succ k => exact Nat.mod_lt k (by decide)

/-- Extraction `k + 1` keeps to the schedule and answers the tempered word of slot `k mod 312` (R98). -/
theorem State.Scheduled.extract (h : s.Scheduled seed k) (ht : exec .mtExtract s = .next t) :
    t.Scheduled seed (k + 1) ∧
      ∃ w, t.mtw.read? (k % 312) = some w ∧ t.rspBuf = packResponse .ok (mtTemperFn w) := by
  obtain ⟨htimes, hcur⟩ := h
  obtain ⟨hun, -⟩ | ⟨hlt, w, hw, rfl⟩ | ⟨heq, m, w, hm, hw, rfl⟩ := exec_mtExtract_next_iff.1 ht
  · exact absurd (cursorAfter_le k) (by omega)
  · rw [hcur] at hlt hw
    obtain ⟨hslot, hcount⟩ := cursorAfter_lt hlt
    refine ⟨⟨hcount ▸ htimes, ?_⟩, w, hslot ▸ hw, rfl⟩
    show (s.mtCur + 1).toNat = k % 312 + 1
    rw [← hslot, ← hcur]
    bv_omega
  · obtain ⟨hslot, hcount⟩ := cursorAfter_eq (hcur.symm.trans heq)
    refine ⟨⟨hcount ▸ twistTimes_succ_last htimes hm, ?_⟩, w, hslot ▸ hw, rfl⟩
    show 1 = k % 312 + 1
    rw [hslot]

/-- A sequence whose MT commands are `k` extractions keeps to the schedule. -/
theorem State.Scheduled.trace (hcs : cs.filter Instr.isMt = List.replicate k Instr.mtExtract)
    (h : s.Scheduled seed j) (ht : execTrace cs s = .next (rs, t)) : t.Scheduled seed (j + k) := by
  induction cs generalizing s rs j k with
  | nil =>
    cases ht
    cases k with
    | zero => exact h
    | succ k => cases hcs
  | cons i cs ih =>
    obtain ⟨u, rs, hu, hrest, rfl⟩ := execTrace_cons_next_iff.1 ht
    cases hi : i.isMt with
    | true =>
      rw [List.filter_cons_of_pos hi] at hcs
      cases k with
      | zero => cases hcs
      | succ k =>
        obtain ⟨rfl, hcs'⟩ := List.cons.inj hcs
        rw [Nat.add_comm k 1, ← Nat.add_assoc]
        exact ih hcs' (h.extract hu).1 hrest
    | false =>
      rw [List.filter_cons_of_neg (by simp [hi])] at hcs
      exact ih hcs (h.of_sameMt (exec_not_mt_sameMt hi hu)) hrest

/-- The response of a last extraction, the `k`-th (R98). -/
theorem execTrace_last_extract (hcs : (cs ++ [Instr.mtExtract]).filter Instr.isMt = List.replicate k Instr.mtExtract)
    (ht : execTrace (cs ++ [Instr.mtExtract]) (seeded s seed) = .next (rs, t)) :
    ∃ w, t.mtw.read? ((k - 1) % 312) = some w ∧ t.rspBuf = packResponse .ok (mtTemperFn w) := by
  obtain ⟨u, r1, r2, hcsu, hlast, -⟩ := execTrace_append_next_iff.1 ht
  obtain ⟨t, r3, hu, hnil, -⟩ := execTrace_cons_next_iff.1 hlast
  cases hnil
  have hbefore : cs.filter Instr.isMt = List.replicate (k - 1) Instr.mtExtract := by
    rw [← List.dropLast_replicate, ← hcs, List.filter_append]
    exact (List.dropLast_concat).symm
  have hu' := (seeded_scheduled s seed).trace hbefore hcsu
  rw [Nat.zero_add] at hu'
  exact (hu'.extract hu).2

/-- Settles O16: the plain sequence answers, so its array is that of the schedule, where every other sequence with `k`
extractions ends too. -/
theorem mtExtractSchedule : Obligations.MtExtractSchedule := by
  intro seed s k hk
  obtain ⟨rs₀, t₀, ht₀, -⟩ := execTrace_mtExtract (seeded_mtSeeded s seed) k
  have hplain : (List.replicate k Instr.mtExtract).filter Instr.isMt = List.replicate k Instr.mtExtract :=
    List.filter_replicate_of_pos rfl
  obtain ⟨htimes₀, -⟩ := (seeded_scheduled s seed).trace hplain ht₀
  rw [Nat.zero_add] at htimes₀
  refine ⟨⟨t₀.mtw, htimes₀, ?_⟩, _, t₀, execTrace_mtSeed_next_iff.2 ⟨rs₀, ht₀, rfl⟩⟩
  intro cs rs t hcs h
  obtain ⟨rs, ht, rfl⟩ := execTrace_mtSeed_next_iff.1 h
  obtain ⟨htimes, hcur⟩ := (seeded_scheduled s seed).trace hcs ht
  rw [Nat.zero_add] at htimes hcur
  have hmtw : t.mtw = t₀.mtw := Except.ok.inj (htimes.symm.trans htimes₀)
  refine ⟨hmtw, ?_, ?_⟩
  · obtain ⟨k, rfl⟩ := Nat.exists_eq_add_of_le' hk
    exact hcur
  · intro hlast
    obtain ⟨cs, rfl⟩ := List.getLast?_eq_some_iff.1 hlast
    rw [← hmtw]
    exact execTrace_last_extract hcs ht

end Sys2Proof.Machine
end

section
/-!
The command words of the TG opcodes (30_encoding.md R65, R69, R70, R157).
-/

namespace Sys2Proof

open Sys2Proof.Machine

variable {i : Instr} {w : CmdWord}

/-- A word whose opcode uses neither field is the command when its other bits are 0, and is turned away otherwise. -/
theorem bareWord_spec {op : BitVec 4} (hi : i.fields = ⟨0, op, 0, 0⟩) (huseIdx : usesIdx op = false)
    (huseData : usesData op = false) (hop : (fieldsOf w).op = op) (s : State) :
    ((fieldsOf w).rsvd = 0 → (fieldsOf w).idx = 0 → (fieldsOf w).data = 0 → decode w = .ok i) ∧
    ((fieldsOf w).rsvd ≠ 0 ∨ (fieldsOf w).idx ≠ 0 ∨ (fieldsOf w).data ≠ 0 →
      acceptCommand w s = .next s.answeredIllegal) := by
  subst hop
  constructor
  · intro hrsvd hidx hdata
    rw [decode_ok_iff, hi, ← hrsvd, ← hidx, ← hdata]
  · intro hbad
    exact acceptCommand_of_field_nonzero
      (hbad.imp_right (Or.imp (fun hidx => ⟨huseIdx, hidx⟩) fun hdata => ⟨huseData, hdata⟩)) s

end Sys2Proof
end

section
/-!
The TG commands one at a time (41_tgfsr.md R120 to R126, R129, R130), and the words of their opcodes.
-/

namespace Sys2Proof.Machine

variable {s t : State} {current src w : Word}

/-! ## `TG.BEGIN` and `TG.PUSH` -/

/-- Settles O20: the definition of the command, and the one opcode whose row uses both fields. -/
theorem tgBeginCommand : Obligations.TgBeginCommand := by
  intro tap twist s
  refine ⟨exec_tgBegin tap twist, fun w hop => ⟨?legal, ?illegal⟩⟩
  case legal =>
    intro hrsvd
    exact decode_of_fields hrsvd (congrArg BitVec.toNat hop) rfl rfl rfl
  case illegal =>
    intro hrsvd
    exact acceptCommand_of_field_nonzero (.inl hrsvd) s

/-- Settles O21: a push outside LOADING is turned away, any other leaves `pushed`. -/
theorem tgPushCommand : Obligations.TgPushCommand := by
  intro word s
  refine ⟨?refused, ?stored, fun w hop => ⟨?legal, ?illegal⟩⟩
  case refused => exact fun hphase => exec_tgPush_next_iff.2 (.inl ⟨hphase, rfl⟩)
  case stored =>
    intro hphase hptr
    have hnext := tgLdptr_next_toNat hptr
    refine ⟨_, BitVec.ofNat 16 (s.tgLdptr.toNat + 1), hnext, Memory.read?_write_same s.tgs _ (truncTG s.cfg word),
      fun k hk => Memory.read?_write_ne s.tgs _ hk, exec_tgPush_next_iff.2 (.inr ⟨hphase, hptr, ?_⟩)⟩
    rw [hnext, pushed, hphase]
    rfl
  case legal =>
    intro hrsvd hidx
    exact decode_of_fields hrsvd (congrArg BitVec.toNat hop) hidx rfl rfl
  case illegal =>
    intro hbad
    exact acceptCommand_of_field_nonzero (hbad.imp_right fun hidx => .inl ⟨hop ▸ rfl, hidx⟩) s

/-! ## `TG.OUTPUT` -/

theorem exec_tgOutput_of_read (hphase : s.tgPhase = phaseReady) (hcur : s.tgCur.toNat < s.cfg.tgN)
    (hw : s.tgs.read? s.tgCur.toNat = some w) : exec .tgOutput s = .next (s.respond .ok (truncTG s.cfg w)) :=
  exec_tgOutput_next_iff.2 (.inr ⟨hphase, hcur, w, hw, rfl⟩)

/-- Settles O22: a word of `TG_W` bits is answered as it stands. -/
theorem tgOutputCommand : Obligations.TgOutputCommand := by
  intro s
  refine ⟨fun hphase => exec_tgOutput_next_iff.2 (.inl ⟨hphase, rfl⟩), ?_,
    fun w hop => bareWord_spec rfl rfl rfl hop s⟩
  intro w hphase hcur hw hlt
  rw [exec_tgOutput_of_read hphase hcur hw, truncTG_of_lt hlt]
  rfl

/-! ## The advance -/

/-- The recurrence of R120 with the lowest bit of `current` for its parity. -/
theorem tgMix_eq (twist current src : Word) :
    tgMix twist current src =
      if current.getLsbD 0 then src ^^^ (current >>> 1) ^^^ twist else src ^^^ (current >>> 1) := by
  simp [tgMix, BitVec.getLsbD, Nat.testBit_zero]

theorem exec_tgAdvance_of_reads (hphase : s.tgPhase = phaseReady) (hcur : s.tgCur.toNat < s.cfg.tgN)
    (hcurrent : s.tgs.read? s.tgCur.toNat = some current) (hsrc : s.tgs.read? (tgSrcIndex s) = some src) :
    exec .tgAdvance s = .next ((advanced s current src).respond .ok 0) :=
  exec_tgAdvance_next_iff.2 (.inr ⟨hphase, hcur, current, src, hcurrent, hsrc, rfl⟩)

theorem exec_tgNext_of_reads (hphase : s.tgPhase = phaseReady) (hcur : s.tgCur.toNat < s.cfg.tgN)
    (hcurrent : s.tgs.read? s.tgCur.toNat = some current) (hsrc : s.tgs.read? (tgSrcIndex s) = some src) :
    exec .tgNext s = .next ((advanced s current src).respond .ok (truncTG s.cfg current)) :=
  exec_tgNext_next_iff.2 (.inr ⟨hphase, hcur, current, src, hcurrent, hsrc, rfl⟩)

/-- What an advance writes (R120, R26): the current slot, the cursor and the response, and nothing else. -/
theorem advanced_spec (s : State) (current src d : Word) :
    ∃ (m : Memory) (v : Word) (c : BitVec 16),
      v = (if current.getLsbD 0 then src ^^^ (current >>> 1) ^^^ s.tgTwist else src ^^^ (current >>> 1)) ∧
      m.read? s.tgCur.toNat = some (truncTG s.cfg v) ∧ (∀ k, k ≠ s.tgCur.toNat → m.read? k = s.tgs.read? k) ∧
      c.toNat = (s.tgCur.toNat + 1) % s.cfg.tgN ∧
      (advanced s current src).respond .ok d = { s with tgs := m, tgCur := c, rspBuf := packResponse .ok d } :=
  ⟨_, tgMix s.tgTwist current src, _, tgMix_eq s.tgTwist current src, Memory.read?_write_same s.tgs _ _,
    fun _ hk => Memory.read?_write_ne s.tgs _ hk, tgCur_next_toNat s.cfg _, rfl⟩

/-- Settles O23: an advance on the two words read writes `advanced`. -/
theorem tgAdvanceCommand : Obligations.TgAdvanceCommand := by
  intro s
  refine ⟨fun hphase => exec_tgAdvance_next_iff.2 (.inl ⟨hphase, rfl⟩), ?_,
    fun w hop => bareWord_spec rfl rfl rfl hop s⟩
  intro current src hphase hcur hcurrent hsrc
  obtain ⟨m, v, c, hv, hslot, hframe, hc, hstate⟩ := advanced_spec s current src 0
  exact ⟨m, v, c, hv, hslot, hframe, hc, hstate ▸ exec_tgAdvance_of_reads hphase hcur hcurrent hsrc⟩

/-- Settles O24: the advance of `TG.ADVANCE`, with the word read for the response. -/
theorem tgNextCommand : Obligations.TgNextCommand := by
  intro s
  refine ⟨fun hphase => exec_tgNext_next_iff.2 (.inl ⟨hphase, rfl⟩), ?_,
    fun w hop => bareWord_spec rfl rfl rfl hop s⟩
  intro current src hphase hcur hcurrent hsrc hlt
  obtain ⟨m, v, c, hv, hslot, hframe, hc, hstate⟩ := advanced_spec s current src current
  have hnext := exec_tgNext_of_reads hphase hcur hcurrent hsrc
  rw [truncTG_of_lt hlt, hstate] at hnext
  exact ⟨m, v, c, hv, hslot, hframe, hc, hnext⟩

/-- Settles O25: neither the guard nor the reads of `TG.ADVANCE` see the response that `TG.OUTPUT` has written. -/
theorem tgNextIsOutputThenAdvance : Obligations.TgNextIsOutputThenAdvance := by
  intro s t
  constructor
  · intro h
    obtain ⟨hphase, rfl⟩ | ⟨hphase, hcur, current, src, hcurrent, hsrc, rfl⟩ := exec_tgNext_next_iff.1 h
    · exact ⟨_, _, exec_tgOutput_next_iff.2 (.inl ⟨hphase, rfl⟩), exec_tgAdvance_next_iff.2 (.inl ⟨hphase, rfl⟩), rfl⟩
    · exact ⟨_, _, exec_tgOutput_of_read hphase hcur hcurrent,
        exec_tgAdvance_of_reads (s := s.respond .ok (truncTG s.cfg current)) hphase hcur hcurrent hsrc, rfl⟩
  · rintro ⟨u, v, hu, hv, rfl⟩
    obtain ⟨hphase, rfl⟩ | ⟨hphase, hcur, w, hw, rfl⟩ := exec_tgOutput_next_iff.1 hu
    · obtain ⟨-, rfl⟩ | ⟨hready, -⟩ := exec_tgAdvance_next_iff.1 hv
      · exact exec_tgNext_next_iff.2 (.inl ⟨hphase, rfl⟩)
      · exact absurd hready hphase
    · obtain ⟨hphase', -⟩ | ⟨-, -, current, src, hcurrent, hsrc, rfl⟩ := exec_tgAdvance_next_iff.1 hv
      · exact absurd hphase hphase'
      · obtain rfl : w = current := Option.some.inj (hw.symm.trans hcurrent)
        exact exec_tgNext_of_reads hphase hcur hw hsrc

/-- A tap that is 0 modulo `TG_N`, and any tap when `TG_N` is 1, names the current word (R130). -/
theorem tgSrcIndex_eq_tgCur (hcur : s.tgCur.toNat < s.cfg.tgN)
    (htap : s.tgTap.toNat % s.cfg.tgN = 0 ∨ s.cfg.tgN = 1) : tgSrcIndex s = s.tgCur.toNat := by
  have hzero : s.tgTap.toNat % s.cfg.tgN = 0 := htap.elim id fun hone => hone ▸ Nat.mod_one _
  rw [tgSrcIndex, Nat.add_mod, hzero, Nat.add_zero, Nat.mod_mod, Nat.mod_eq_of_lt hcur]

/-- Settles O31: the source word is the current one. -/
theorem tapZeroCombinesTheWordWithItself : Obligations.TapZeroCombinesTheWordWithItself := by
  intro s current hphase hcur hcurrent htap
  have hsrc : s.tgs.read? (tgSrcIndex s) = some current := by rwa [tgSrcIndex_eq_tgCur hcur htap]
  refine ⟨_, exec_tgAdvance_of_reads hphase hcur hcurrent hsrc, ?_⟩
  rw [← tgMix_eq]
  exact Memory.read?_write_same s.tgs _ _

/-! ## `TG.RDWORD` -/

/-- Settles O26: the range is checked first, then the phase. -/
theorem tgRdwordCommand : Obligations.TgRdwordCommand := by
  intro idx s
  refine ⟨?range, ?uninit, ?read, fun w hop => ⟨?legal, ?illegal⟩⟩
  case range => exact fun hidx => exec_tgRdword_next_iff.2 (.inl ⟨hidx, rfl⟩)
  case uninit => exact fun hidx hphase => exec_tgRdword_next_iff.2 (.inr (.inl ⟨hidx, hphase, rfl⟩))
  case read =>
    intro w hidx hphase hw hlt
    refine exec_tgRdword_next_iff.2 (.inr (.inr ⟨hidx, hphase, w, hw, ?_⟩))
    rw [truncTG_of_lt hlt]
    rfl
  case legal =>
    intro hrsvd hdata
    exact decode_of_fields hrsvd (congrArg BitVec.toNat hop) rfl hdata rfl
  case illegal =>
    intro hbad
    exact acceptCommand_of_field_nonzero (hbad.imp_right fun hdata => .inr ⟨hop ▸ rfl, hdata⟩) s

/-! ## The range of the outputs -/

theorem rspData_error_lt (cfg : Config) (st : Status) : (rspData (packResponse st 0)).toNat < 2 ^ cfg.tgW := by
  rw [rspData_pack]
  exact Nat.two_pow_pos cfg.tgW

theorem rspData_truncTG_lt (cfg : Config) (st : Status) (w : Word) :
    (rspData (packResponse st (truncTG cfg w))).toNat < 2 ^ cfg.tgW := by
  rw [rspData_pack]
  exact truncTG_lt cfg w

/-- Settles O30: a response carries an error's 0 or a truncated word. -/
theorem tgOutputsAreInRange : Obligations.TgOutputsAreInRange := by
  rintro i s t (rfl | rfl | ⟨idx, rfl⟩) h
  · obtain ⟨-, rfl⟩ | ⟨-, -, w, -, rfl⟩ := exec_tgOutput_next_iff.1 h
    · exact rspData_error_lt s.cfg .errUninit
    · exact rspData_truncTG_lt s.cfg .ok w
  · obtain ⟨-, rfl⟩ | ⟨-, -, current, src, -, -, rfl⟩ := exec_tgNext_next_iff.1 h
    · exact rspData_error_lt s.cfg .errUninit
    · exact rspData_truncTG_lt s.cfg .ok current
  · obtain ⟨-, rfl⟩ | ⟨-, -, rfl⟩ | ⟨-, -, w, -, rfl⟩ := exec_tgRdword_next_iff.1 h
    · exact rspData_error_lt s.cfg .errRange
    · exact rspData_error_lt s.cfg .errUninit
    · exact rspData_truncTG_lt s.cfg .ok w

end Sys2Proof.Machine
end

section
/-!
Sequences of TG commands (41_tgfsr.md R127, R128, R131).
-/

namespace Sys2Proof.Machine

variable {i : Instr} {s s' t : State} {cs : List Instr} {rs : List RspWord} {ws vs : List Word}
  {current src w w0 wk : Word}

/-! ## Outputs repeat -/

theorem State.sameTg.trans (h : s.sameTg s') (h' : s'.sameTg t) : s.sameTg t := by
  obtain ⟨hcfg, htgs, hcur, htap, htwist, hphase, hptr⟩ := h
  obtain ⟨hcfg', htgs', hcur', htap', htwist', hphase', hptr'⟩ := h'
  exact ⟨hcfg.trans hcfg', htgs.trans htgs', hcur.trans hcur', htap.trans htap', htwist.trans htwist',
    hphase.trans hphase', hptr.trans hptr'⟩

/-- A command that is no TG command, `TG.OUTPUT` and `TG.RDWORD` leave the TG engine (R2, R51). -/
theorem exec_sameTg (hi : i.isTg = true → i = .tgOutput ∨ ∃ idx, i = .tgRdword idx) (h : exec i s = .next t) :
    s.sameTg t := by
  cases exec_effect h with
  | response | seeded | extracted | twisted => exact ⟨rfl, rfl, rfl, rfl, rfl, rfl, rfl⟩
  | begun | pushed => obtain hi | ⟨idx, hi⟩ := hi rfl <;> cases hi
  | advanced current src d hadv => obtain rfl | rfl := hadv <;> obtain hi | ⟨idx, hi⟩ := hi rfl <;> cases hi

theorem execTrace_sameTg (hcs : ∀ i ∈ cs, i.isTg = true → i = .tgOutput ∨ ∃ idx, i = .tgRdword idx)
    (h : execTrace cs s = .next (rs, t)) : s.sameTg t := by
  induction cs generalizing s rs with
  | nil =>
    cases h
    exact ⟨rfl, rfl, rfl, rfl, rfl, rfl, rfl⟩
  | cons i cs ih =>
    obtain ⟨hi, hcs⟩ := List.forall_mem_cons.1 hcs
    obtain ⟨u, rs, hu, hrest, rfl⟩ := execTrace_cons_next_iff.1 h
    exact (exec_sameTg hi hu).trans (ih hcs hrest)

/-- Settles O29: the commands between two outputs leave the TG engine, and a TG command's response depends on that
engine alone. -/
theorem outputsRepeatUntilAnAdvance : Obligations.OutputsRepeatUntilAnAdvance := by
  constructor
  · intro s s1 s2 s3 cs rs hcs h1 h2 h3
    have hsame : s.sameTg s2 := (exec_sameTg (fun _ => .inl rfl) h1).trans (execTrace_sameTg hcs h2)
    obtain ⟨s3', h3', -, hrsp⟩ := exec_tg_of_sameTg rfl h1 hsame
    cases h3.symm.trans h3'
    exact hrsp.symm
  · intro s s' t rs hs h
    obtain ⟨u, rs, hu, hrest, rfl⟩ := execTrace_cons_next_iff.1 h
    obtain ⟨t, rs, ht, hnil, rfl⟩ := execTrace_cons_next_iff.1 hrest
    cases hnil
    obtain ⟨u', hu', hsame, hrspu⟩ := exec_tg_of_sameTg rfl hu hs
    obtain ⟨t', ht', -, hrspt⟩ := exec_tg_of_sameTg rfl ht hsame
    rw [hrspu, hrspt]
    exact ⟨t', execTrace_cons_next_iff.2 ⟨u', _, hu', execTrace_cons_next_iff.2 ⟨t', [], ht', rfl, rfl⟩, rfl⟩⟩

/-! ## The words of a construction come out in order -/

/-- A constructed engine stays one under an advance (R26, R42). -/
theorem advanced_tgReady (h : s.tgReady) (current src d : Word) : ((advanced s current src).respond .ok d).tgReady := by
  obtain ⟨hphase, hfull, -⟩ := h
  refine ⟨hphase, Memory.full_write hfull _ _, ?_⟩
  rw [State.respond_tgCur, advanced_tgCur, tgCur_next_toNat]
  exact Nat.mod_lt _ s.cfg.tgN_pos

/-- `TG.NEXT` on a constructed engine: its response, the cursor, the regenerated slot and every other slot (R120,
R125). -/
theorem exec_tgNext_of_tgReady (h : s.tgReady) (hcurrent : s.tgs.read? s.tgCur.toNat = some current)
    (hsrc : s.tgs.read? (tgSrcIndex s) = some src) :
    ∃ u, exec .tgNext s = .next u ∧ u.tgReady ∧ u.cfg = s.cfg ∧ u.rspBuf = packResponse .ok (truncTG s.cfg current) ∧
      u.tgCur.toNat = (s.tgCur.toNat + 1) % s.cfg.tgN ∧
      u.tgs.read? s.tgCur.toNat = some (truncTG s.cfg (tgMix s.tgTwist current src)) ∧
      ∀ k, k ≠ s.tgCur.toNat → u.tgs.read? k = s.tgs.read? k := by
  have ⟨hphase, _, hcur⟩ := h
  exact ⟨_, exec_tgNext_of_reads hphase hcur hcurrent hsrc, advanced_tgReady h current src _, rfl, rfl,
    tgCur_next_toNat s.cfg _, Memory.read?_write_same s.tgs _ _, fun _ hk => Memory.read?_write_ne s.tgs _ hk⟩

/-- `TG.NEXT` over the slots from the cursor on, not past the last: it answers their words `vs`, moves the cursor behind
them, regenerates the first from the array before the run, and leaves every slot outside the run. -/
theorem execTrace_tgNexts (hready : s.tgReady) (hin : s.tgCur.toNat + vs.length ≤ s.cfg.tgN)
    (hread : ∀ k v, vs[k]? = some v → s.tgs.read? (s.tgCur.toNat + k) = some v) :
    ∃ t, execTrace (List.replicate vs.length .tgNext) s =
        .next (vs.map (fun v => packResponse .ok (truncTG s.cfg v)), t) ∧
      t.tgReady ∧ t.cfg = s.cfg ∧ t.tgCur.toNat = (s.tgCur.toNat + vs.length) % s.cfg.tgN ∧
      (∀ v src, vs[0]? = some v → s.tgs.read? (tgSrcIndex s) = some src →
        t.tgs.read? s.tgCur.toNat = some (truncTG s.cfg (tgMix s.tgTwist v src))) ∧
      ∀ k, k < s.tgCur.toNat ∨ s.tgCur.toNat + vs.length ≤ k → t.tgs.read? k = s.tgs.read? k := by
  induction vs generalizing s with
  | nil =>
    have ⟨_, _, hcur⟩ := hready
    exact ⟨s, rfl, hready, rfl, (Nat.mod_eq_of_lt hcur).symm, fun _ _ hv => absurd hv (by simp), fun _ _ => rfl⟩
  | cons v vs ih =>
    rw [List.length_cons] at hin ⊢
    have ⟨_, hfull, _⟩ := hready
    obtain ⟨src, hsrc⟩ := hfull _ (tgSrcIndex_lt s)
    obtain ⟨u, hu, hready', hcfg, hrsp, hcur, hslot, hframe⟩ := exec_tgNext_of_tgReady hready (hread 0 v rfl) hsrc
    -- the cursor wraps behind the last slot of the array only, and then the run is over
    have hwrap : u.tgCur.toNat = s.tgCur.toNat + 1 ∨ u.tgCur.toNat = 0 ∧ vs.length = 0 := by
      rcases Nat.lt_or_ge (s.tgCur.toNat + 1) s.cfg.tgN with hlt | hge
      · exact .inl (hcur.trans (Nat.mod_eq_of_lt hlt))
      · have hlast : s.tgCur.toNat + 1 = s.cfg.tgN := by omega
        exact .inr ⟨by rw [hcur, hlast, Nat.mod_self], by omega⟩
    have hread' (k : Nat) (v' : Word) (hv : vs[k]? = some v') : u.tgs.read? (u.tgCur.toNat + k) = some v' := by
      have hk : k < vs.length := (List.getElem?_eq_some_iff.1 hv).1
      have hidx : u.tgCur.toNat + k = s.tgCur.toNat + (k + 1) := by omega
      rw [hidx, hframe _ (by omega), hread (k + 1) v' hv]
    obtain ⟨t, ht, htready, htcfg, htcur, -, htframe⟩ := ih hready' (by rw [hcfg]; omega) hread'
    refine ⟨t, execTrace_cons_next_iff.2 ⟨u, _, hu, ht, ?responses⟩, htready, htcfg.trans hcfg, ?cursor, ?first, ?frame⟩
    case responses => rw [List.map_cons, hrsp, hcfg]
    case cursor => rw [htcur, hcfg, hcur, Nat.mod_add_mod, Nat.add_assoc, Nat.add_comm 1]
    case first =>
      intro v' src' hv hsrc'
      cases hv
      cases hsrc.symm.trans hsrc'
      rw [htframe _ (by omega), hslot]
    case frame =>
      intro k hk
      rw [htframe k (by omega), hframe k (by omega)]

theorem constructed_read? (s : State) (tap : Index) (twist : Word) {k : Nat} (hw : ws[k]? = some w) :
    (constructed s tap twist ws).tgs.read? k = some (truncTG s.cfg w) := Memory.read?_load_zero hw

/-- After a construction the cursor is 0, so the tap alone names the source word (R120). -/
theorem constructed_tgSrcIndex (s : State) (tap : Index) (twist : Word) (ws : List Word) :
    tgSrcIndex (constructed s tap twist ws) = tap.toNat % s.cfg.tgN :=
  congrArg (· % s.cfg.tgN) (Nat.zero_add tap.toNat)

/-- `TG_N` times `TG.NEXT` after a construction answer the words loaded and bring the cursor back to slot 0, which holds
its regenerated word (R120). -/
theorem execTrace_constructed_tgNexts (tap : Index) (twist : Word) (hlen : ws.length = s.cfg.tgN)
    (hw0 : ws[0]? = some w0) (hwk : ws[tap.toNat % s.cfg.tgN]? = some wk) :
    ∃ t, execTrace (List.replicate s.cfg.tgN .tgNext) (constructed s tap twist ws) =
        .next (ws.map (fun w => packResponse .ok (truncTG s.cfg w)), t) ∧
      t.tgReady ∧ t.cfg = s.cfg ∧ t.tgs.read? t.tgCur.toNat =
        some (truncTG s.cfg (tgMix (truncTG s.cfg twist) (truncTG s.cfg w0) (truncTG s.cfg wk))) := by
  have hcfg : (constructed s tap twist ws).cfg = s.cfg := rfl
  have hcur : (constructed s tap twist ws).tgCur.toNat = 0 := rfl
  have hlen' : (ws.map (truncTG s.cfg)).length = s.cfg.tgN := by rw [List.length_map, hlen]
  have hread (k : Nat) (v : Word) (hv : (ws.map (truncTG s.cfg))[k]? = some v) :
      (constructed s tap twist ws).tgs.read? ((constructed s tap twist ws).tgCur.toNat + k) = some v := by
    rw [List.getElem?_map, Option.map_eq_some_iff] at hv
    obtain ⟨w, hw, rfl⟩ := hv
    rw [hcur, Nat.zero_add, constructed_read? s tap twist hw]
  obtain ⟨t, ht, htready, htcfg, htcur, hfirst, -⟩ := execTrace_tgNexts (constructed_tgReady tap twist hlen)
    (by rw [hlen', hcur, hcfg, Nat.zero_add]) hread
  rw [hlen', hcur, hcfg, Nat.zero_add, Nat.mod_self] at htcur
  refine ⟨t, ?_, htready, htcfg, ?_⟩
  · simpa [hlen', hlen, hcfg, Function.comp_def] using ht
  · rw [htcur]
    refine hfirst _ _ (by rw [List.getElem?_map, hw0]; rfl) ?_
    rw [constructed_tgSrcIndex, constructed_read? s tap twist hwk]

/-- Settles O28: the construction, the run of `TG.NEXT` over the words loaded, and once more at slot 0. -/
theorem loadedWordsComeOutFirst : Obligations.LoadedWordsComeOutFirst := by
  intro tap twist ws s hlen
  have hslot {k : Nat} (hk : k < s.cfg.tgN) : ∃ w, ws[k]? = some w := ⟨_, List.getElem?_eq_getElem (hlen ▸ hk)⟩
  obtain ⟨w0, hw0⟩ := hslot s.cfg.tgN_pos
  obtain ⟨wk, hwk⟩ := hslot (Nat.mod_lt tap.toNat s.cfg.tgN_pos)
  obtain ⟨t, ht, htready, htcfg, hcurrent⟩ := execTrace_constructed_tgNexts tap twist hlen hw0 hwk
  have ⟨_, hfull, _⟩ := htready
  obtain ⟨src, hsrc⟩ := hfull _ (tgSrcIndex_lt t)
  obtain ⟨u, hu, -, -, hrsp, -⟩ := exec_tgNext_of_tgReady htready hcurrent hsrc
  refine ⟨t, execTrace_append_next_iff.2 ⟨_, _, _, execTrace_construction tap twist hlen, ht, by rw [hlen]⟩,
    w0, wk, u, hw0, hwk, hu, ?_⟩
  rw [hrsp, htcfg, truncTG_truncTG]

/-! ## Zeros stay zeros -/

/-- A READY engine whose words are all 0 (R131). -/
def State.tgZero (s : State) : Prop :=
  s.tgPhase = phaseReady ∧ s.tgCur.toNat < s.cfg.tgN ∧ ∀ j, j < s.cfg.tgN → s.tgs.read? j = some 0

theorem State.tgZero.tgReady (h : s.tgZero) : s.tgReady := by
  obtain ⟨hphase, hcur, hzero⟩ := h
  exact ⟨hphase, fun j hj => ⟨0, hzero j hj⟩, hcur⟩

@[simp] theorem truncTG_zero (cfg : Config) : truncTG cfg 0 = 0 := truncTG_of_lt (Nat.two_pow_pos cfg.tgW)

/-- Two zero words regenerate to zero: 0 is even, so the twist vector stays out (R131). -/
theorem tgMix_zero (twist : Word) : tgMix twist 0 0 = 0 := rfl

theorem advanced_tgZero (h : s.tgZero) : ((advanced s 0 0).respond .ok 0).tgZero := by
  obtain ⟨hphase, -, hcur⟩ := advanced_tgReady h.tgReady 0 0 0
  obtain ⟨-, -, hzero⟩ := h
  refine ⟨hphase, hcur, fun j hj => ?_⟩
  rw [State.respond_tgs, advanced_tgs, tgMix_zero, truncTG_zero, Memory.read?_write]
  split
  · rfl
  · exact hzero j hj

/-- Outputs and advances of an all-zero engine answer 0 and leave it all-zero. -/
theorem exec_of_tgZero (hi : i = .tgOutput ∨ i = .tgAdvance ∨ i = .tgNext) (h : s.tgZero) :
    ∃ t, exec i s = .next t ∧ t.rspBuf = packResponse .ok 0 ∧ t.tgZero := by
  have ⟨hphase, hcur, hzero⟩ := h
  have hcurrent : s.tgs.read? s.tgCur.toNat = some 0 := hzero _ hcur
  have hsrc : s.tgs.read? (tgSrcIndex s) = some 0 := hzero _ (tgSrcIndex_lt s)
  obtain rfl | rfl | rfl := hi
  · exact ⟨s.respond .ok 0, truncTG_zero s.cfg ▸ exec_tgOutput_of_read hphase hcur hcurrent, rfl, h⟩
  · exact ⟨_, exec_tgAdvance_of_reads hphase hcur hcurrent hsrc, rfl, advanced_tgZero h⟩
  · have hnext := exec_tgNext_of_reads hphase hcur hcurrent hsrc
    rw [truncTG_zero] at hnext
    exact ⟨_, hnext, rfl, advanced_tgZero h⟩

theorem execTrace_of_tgZero (hcs : ∀ i ∈ cs, i = .tgOutput ∨ i = .tgAdvance ∨ i = .tgNext) (h : s.tgZero) :
    ∃ t, execTrace cs s = .next (List.replicate cs.length (packResponse .ok 0), t) ∧ t.tgZero ∧ t.cfg = s.cfg := by
  induction cs generalizing s with
  | nil => exact ⟨s, rfl, h, rfl⟩
  | cons i cs ih =>
    obtain ⟨hi, hcs⟩ := List.forall_mem_cons.1 hcs
    obtain ⟨u, hu, hrsp, huzero⟩ := exec_of_tgZero hi h
    obtain ⟨t, ht, htzero, hcfg⟩ := ih hcs huzero
    refine ⟨t, execTrace_cons_next_iff.2 ⟨u, _, hu, ht, ?_⟩, htzero, hcfg.trans (exec_next_cfg hu)⟩
    rw [hrsp]
    rfl

/-- Settles O32, by induction on the sequence. -/
theorem zeroTgStateStaysZero : Obligations.ZeroTgStateStaysZero := by
  intro s cs hphase hcur hzero hcs
  obtain ⟨t, ht, ⟨-, -, htzero⟩, hcfg⟩ := execTrace_of_tgZero hcs ⟨hphase, hcur, hzero⟩
  exact ⟨t, ht, hcfg ▸ htzero⟩

end Sys2Proof.Machine
end

section
/-!
The control commands (42_control.md R145, R146) and the words of their opcodes.
-/

namespace Sys2Proof.Machine

variable {s : State}

/-! ## `NOP` -/

/-- Settles O8: the definition of the command; a word of opcode 0 whose other fields are all 0 is the encoding of `NOP`,
the word 0. -/
theorem nopCommand : Obligations.NopCommand := by
  intro s
  refine ⟨exec_nop, decode_encode .nop, fun w hop hne => ?_⟩
  obtain ⟨hlegal, hillegal⟩ := bareWord_spec (i := .nop) rfl rfl rfl hop s
  refine hillegal ?_
  by_contra! hzero
  obtain ⟨hrsvd, hidx, hdata⟩ := hzero
  have hword : encode .nop = w := encodeOfDecodeIsTheWord w .nop (hlegal hrsvd hidx hdata)
  exact hne hword.symm

/-! ## `RDREG` -/

theorem exec_rdreg_of_some {n : Index} {v : Word} (h : readReg s n = some v) :
    exec (.rdreg n) s = .next (s.respond .ok v) :=
  exec_rdreg_next_iff.2 (.inl ⟨v, h, rfl⟩)

/-- The register numbers from 5 on are unassigned (R146). -/
theorem readReg_eq_none {n : Index} (hn : 5 ≤ n.toNat) : readReg s n = none := by
  unfold readReg
  split
  case h_1 | h_2 | h_3 | h_4 | h_5 => omega
  case h_6 => rfl

/-- What the registers other than `PARAM` read right after reset: the fields of R35 to R38 with the values of R33. -/
theorem registers_resetOf (cfg : Config) :
    regMtStatus (State.resetOf cfg) = 0x1FF ∧ regTgStatus (State.resetOf cfg) = 0 ∧
      regTgTap (State.resetOf cfg) = 0 ∧ regTgTwist (State.resetOf cfg) = 0 := by
  have hmtStatus : 0#55 ++ 0x1FF#9 = 0x1FF#64 := by decide
  have htgStatus : 0#30 ++ 0#2 ++ 0#16 ++ 0#16 = 0#64 := by decide
  exact ⟨hmtStatus, htgStatus, BitVec.zero_append_zero, truncTG_zero cfg⟩

/-- Settles O9: the register map number by number, `MT_STATUS` by the range of its cursor, and the words of an opcode whose
row uses `IDX` only. -/
theorem rdregCommand : Obligations.RdregCommand := by
  intro s
  refine ⟨exec_rdreg_of_some rfl, exec_rdreg_of_some rfl, exec_rdreg_of_some rfl, exec_rdreg_of_some rfl,
    exec_rdreg_of_some rfl, ?range, regMtStatus_ne_zero, registers_resetOf, fun w hop => ⟨?legal, ?illegal⟩⟩
  case range => exact fun n hn => exec_rdreg_next_iff.2 (.inr ⟨readReg_eq_none hn, rfl⟩)
  case legal =>
    intro hrsvd hdata
    exact decode_of_fields hrsvd (congrArg BitVec.toNat hop) rfl hdata rfl
  case illegal =>
    intro hbad
    exact acceptCommand_of_field_nonzero (hbad.imp_right fun hdata => .inr ⟨hop ▸ rfl, hdata⟩) s

end Sys2Proof.Machine
end

section
/-!
The errors of the commands (60_exceptions.md R155 to R161): what an error leaves unchanged, which state and operand give
which status, and the order in which the errors are reported.
-/

namespace Sys2Proof.Machine

variable {i : Instr} {s t : State} {st st' : Status} {w : CmdWord}

/-! ## Nothing is written -/

/-- An error's effect is a response only (R160). -/
theorem Effect.error_writes_response_only (he : Effect s i t) (hst : rspStatus t.rspBuf ≠ 0) :
    t = { s with rspBuf := t.rspBuf } := by
  cases he with
  | response => rfl
  | seeded | extracted | twisted | begun | pushed | advanced => exact absurd (rspStatus_pack .ok _) hst

theorem exec_error_writes_response_only (h : exec i s = .next t) (hst : rspStatus t.rspBuf ≠ 0) :
    t = { s with rspBuf := t.rspBuf } ∧ rspData t.rspBuf = 0 :=
  ⟨(exec_effect h).error_writes_response_only hst, exec_error_rspData h hst⟩

/-- Settles O34: the port adds the outstanding command to what the command in error leaves, and to the answer of an ILLEGAL
word. -/
theorem errorsWriteNothing : Obligations.ErrorsWriteNothing := by
  refine ⟨fun i s t => exec_error_writes_response_only, fun w s t h hst => ?_⟩
  obtain ⟨i, u, -, hu, rfl⟩ | ⟨e, -, rfl⟩ := acceptCommand_next_iff.1 h
  · obtain ⟨hframe, hdata⟩ := exec_error_writes_response_only hu hst
    exact ⟨congrArg State.beginBusy hframe, hdata⟩
  · exact ⟨rfl, rspData_pack .errIllegal 0⟩

/-! ## The status of a command -/

theorem Status.code_inj : st.code = st'.code ↔ st = st' := by
  cases st <;> cases st' <;> decide

theorem readReg_eq_none_iff {n : Index} : readReg s n = none ↔ 5 ≤ n.toNat := by
  refine ⟨fun h => ?_, readReg_eq_none⟩
  unfold readReg at h
  split at h
  case h_1 | h_2 | h_3 | h_4 | h_5 => cases h
  case h_6 => grind

/-- The status that R156, R158 and R159 give a command in a state, an index out of range first (R161). -/
def commandStatus (s : State) : Instr → Status
  | .nop | .mtSeed _ | .tgBegin _ _ => .ok
  | .mtExtract => if 312 < s.mtCur.toNat then .errUninit else .ok
  | .mtRdword idx => if 339 < idx.toNat then .errRange else if 312 < s.mtCur.toNat then .errUninit else .ok
  | .tgPush _ => if s.tgPhase = phaseLoading then .ok else .errSeq
  | .tgOutput | .tgAdvance | .tgNext => if s.tgPhase = phaseReady then .ok else .errUninit
  | .tgRdword idx =>
    if s.cfg.tgN ≤ idx.toNat then .errRange else if s.tgPhase = phaseReady then .ok else .errUninit
  | .rdreg n => if 5 ≤ n.toNat then .errRange else .ok

/-- Every answer of a command carries the status that its operand and the state before it determine. -/
theorem exec_next_rspStatus (h : exec i s = .next t) : rspStatus t.rspBuf = (commandStatus s i).code := by
  cases i with
  | nop | mtSeed _ | tgBegin _ _ =>
    cases h
    exact rspStatus_pack .ok 0
  | mtExtract =>
    obtain ⟨hcur, rfl⟩ | ⟨hcur, w, -, rfl⟩ | ⟨hcur, m, w, -, -, rfl⟩ := exec_mtExtract_next_iff.1 h
    · simp [commandStatus, hcur]
    · simp [commandStatus, hcur.not_gt]
    · simp [commandStatus, hcur]
  | mtRdword idx =>
    obtain ⟨hidx, rfl⟩ | ⟨hidx, hcur, rfl⟩ | ⟨hidx, hcur, w, -, rfl⟩ := exec_mtRdword_next_iff.1 h
    · simp [commandStatus, hidx]
    · simp [commandStatus, hidx.not_gt, hcur]
    · simp [commandStatus, hidx.not_gt, hcur.not_gt]
  | tgPush word =>
    obtain ⟨hphase, rfl⟩ | ⟨hphase, -, rfl⟩ := exec_tgPush_next_iff.1 h <;> simp [commandStatus, hphase]
  | tgOutput =>
    obtain ⟨hphase, rfl⟩ | ⟨hphase, -, w, -, rfl⟩ := exec_tgOutput_next_iff.1 h <;> simp [commandStatus, hphase]
  | tgAdvance =>
    obtain ⟨hphase, rfl⟩ | ⟨hphase, -, current, src, -, -, rfl⟩ := exec_tgAdvance_next_iff.1 h <;>
      simp [commandStatus, hphase]
  | tgNext =>
    obtain ⟨hphase, rfl⟩ | ⟨hphase, -, current, src, -, -, rfl⟩ := exec_tgNext_next_iff.1 h <;>
      simp [commandStatus, hphase]
  | tgRdword idx =>
    obtain ⟨hidx, rfl⟩ | ⟨hidx, hphase, rfl⟩ | ⟨hidx, hphase, w, -, rfl⟩ := exec_tgRdword_next_iff.1 h
    · simp [commandStatus, hidx]
    · simp [commandStatus, hidx.not_ge, hphase]
    · simp [commandStatus, hidx.not_ge, hphase]
  | rdreg n =>
    obtain ⟨v, hv, rfl⟩ | ⟨hnone, rfl⟩ := exec_rdreg_next_iff.1 h
    · have hn : ¬ 5 ≤ n.toNat := fun hn => Option.some_ne_none v (hv.symm.trans (readReg_eq_none hn))
      simp [commandStatus, hn]
    · simp [commandStatus, readReg_eq_none_iff.1 hnone]

theorem exec_next_rspStatus_eq_code_iff (h : exec i s = .next t) (st : Status) :
    rspStatus t.rspBuf = st.code ↔ commandStatus s i = st := by
  rw [exec_next_rspStatus h, Status.code_inj]

/-- R156: the commands that need an engine which the state does not have. -/
theorem commandStatus_eq_errUninit_iff :
    commandStatus s i = .errUninit ↔
      ((i = .mtExtract ∨ ∃ idx : Index, idx.toNat ≤ 339 ∧ i = .mtRdword idx) ∧ 312 < s.mtCur.toNat) ∨
      ((i = .tgOutput ∨ i = .tgAdvance ∨ i = .tgNext ∨ ∃ idx : Index, idx.toNat < s.cfg.tgN ∧ i = .tgRdword idx) ∧
        s.tgPhase ≠ phaseReady) := by
  cases i <;> simp [commandStatus, ite_eq_iff]

/-- R158: the commands whose index is out of its range. -/
theorem commandStatus_eq_errRange_iff :
    commandStatus s i = .errRange ↔
      (∃ idx : Index, 339 < idx.toNat ∧ i = .mtRdword idx) ∨
      (∃ idx : Index, s.cfg.tgN ≤ idx.toNat ∧ i = .tgRdword idx) ∨
      (∃ n : Index, 5 ≤ n.toNat ∧ i = .rdreg n) := by
  cases i <;> simp [commandStatus, ite_eq_iff]

/-- R159: a push outside a construction. -/
theorem commandStatus_eq_errSeq_iff :
    commandStatus s i = .errSeq ↔ (∃ word, i = .tgPush word) ∧ s.tgPhase ≠ phaseLoading := by
  cases i <;> simp [commandStatus, ite_eq_iff]

theorem commandStatus_ne_errIllegal : commandStatus s i ≠ .errIllegal := by
  cases i <;> simp [commandStatus, ite_eq_iff]

/-- Settles O36: the status of an answer is that of the command and the state, which has each value for its cause only. -/
theorem errorCauses : Obligations.ErrorCauses := by
  intro i s t h
  have hcode := exec_next_rspStatus_eq_code_iff h
  refine ⟨(hcode .errUninit).trans commandStatus_eq_errUninit_iff, (hcode .errRange).trans commandStatus_eq_errRange_iff,
    (hcode .errSeq).trans commandStatus_eq_errSeq_iff, fun hst => ?illegal, ?bound⟩
  case illegal => exact commandStatus_ne_errIllegal ((hcode .errIllegal).1 hst)
  case bound =>
    rw [exec_next_rspStatus h]
    exact (commandStatus s i).code_le

/-! ## The order of the errors -/

theorem acceptCommand_of_raise (hw : decode w = .ok i) (h : exec i s = .next (s.raise st)) :
    acceptCommand w s = .next (s.raise st).beginBusy := by
  rw [acceptCommand_ok hw, h, mapNext_next]

/-- Settles O37: an ill-formed word decodes to no command, the two reads check the index first in every state, and
`TG.PUSH` is a cause of `ERR_SEQ` only. -/
theorem errorPriority : Obligations.ErrorPriority := by
  intro w s
  refine ⟨fun hbad => ?illegal, fun idx hw hidx => ?mtRange, fun idx hw hidx => ?tgRange, fun i t h => ⟨?uninit, ?seq⟩⟩
  case illegal =>
    obtain ⟨e, he⟩ := exists_decode_error (Bool.eq_false_iff.1 hbad)
    exact acceptCommand_error_eq_answeredIllegal he
  case mtRange => exact acceptCommand_of_raise hw (exec_mtRdword_next_iff.2 (.inl ⟨hidx, rfl⟩))
  case tgRange => exact acceptCommand_of_raise hw (exec_tgRdword_next_iff.2 (.inl ⟨hidx, rfl⟩))
  case uninit =>
    rintro hst word rfl
    have hcause := commandStatus_eq_errUninit_iff.1 ((exec_next_rspStatus_eq_code_iff h .errUninit).1 hst)
    simp at hcause
  case seq =>
    intro hst
    obtain ⟨hpush, -⟩ := commandStatus_eq_errSeq_iff.1 ((exec_next_rspStatus_eq_code_iff h .errSeq).1 hst)
    exact hpush

end Sys2Proof.Machine
end

section
/-!
Reset and the host's duties (70_reset_and_hazards.md R180, R181, R186): the reset edge and the block after it, and a
response that is never taken.
-/

namespace Sys2Proof.Machine

variable {i : Instr} {s t : State} {p : PortIn} {ps rest : List PortIn} {w : CmdWord}

/-! ## The reset edge -/

theorem step_reset (hrst : s.portIn.rst = true) : step s = .next s.useInput.resetEdge :=
  step_next_iff.2 (.inl ⟨hrst, rfl⟩)

/-- The block with no command outstanding nor offered: a step, a reset edge or not, presents nothing and hands nothing
over. -/
theorem step_idle_without_offer (hbusy : s.ifBusy = false) (hpresented : s.rspValid = false)
    (hoffer : s.portIn.cmdValid = false) (h : step s = .next t) :
    t.ifBusy = false ∧ t.rspValid = false ∧ t.taken = s.taken := by
  have hcases : (s.portIn.rst = true ∧ t = s.useInput.resetEdge) ∨
      (s.portIn.rst = false ∧ hostSteady s.portIn s = true ∧ t = s.useInput) := by
    simpa [hbusy, hoffer] using step_next_iff.1 h
  obtain ⟨-, rfl⟩ | ⟨-, -, rfl⟩ := hcases
  · exact ⟨rfl, rfl, rfl⟩
  · exact ⟨hbusy, hpresented, rfl⟩

/-- R156: a command that needs an engine which the state does not have answers `ERR_UNINIT`, in every state. -/
theorem exec_of_commandStatus_errUninit (h : commandStatus s i = .errUninit) :
    exec i s = .next (s.raise .errUninit) := by
  obtain ⟨rfl | ⟨idx, hidx, rfl⟩, hcur⟩ | ⟨rfl | rfl | rfl | ⟨idx, hidx, rfl⟩, hphase⟩ :=
    commandStatus_eq_errUninit_iff.1 h
  · exact exec_mtExtract_next_iff.2 (.inl ⟨hcur, rfl⟩)
  · exact exec_mtRdword_next_iff.2 (.inr (.inl ⟨hidx, hcur, rfl⟩))
  · exact exec_tgOutput_next_iff.2 (.inl ⟨hphase, rfl⟩)
  · exact exec_tgAdvance_next_iff.2 (.inl ⟨hphase, rfl⟩)
  · exact exec_tgNext_next_iff.2 (.inl ⟨hphase, rfl⟩)
  · exact exec_tgRdword_next_iff.2 (.inr (.inl ⟨hidx, hphase, rfl⟩))

/-- Settles O47: the step is the reset edge, after which the block is idle and neither engine is constructed. -/
theorem resetEdge : Obligations.ResetEdge := by
  intro s hrst
  have hcur : 312 < s.useInput.resetEdge.mtCur.toNat := show 312 < (0x1FF : BitVec 9).toNat by decide
  have hphase : s.useInput.resetEdge.tgPhase ≠ phaseReady := show phaseEmpty ≠ phaseReady by decide
  refine ⟨by simp [cmdReady, hrst], by simp [rspValidOut, hrst], _, step_reset hrst, rfl, fun _ => rfl, rfl,
    fun _ => rfl, rfl, rfl, rfl, rfl, rfl, rfl, rfl, rfl, rfl, ?accepts, ?quiet, ?uninit⟩
  case accepts =>
    intro p hp
    simp [cmdReady, hp]
  case quiet => exact fun u hoffer hu => step_idle_without_offer (s := s.useInput.resetEdge) rfl rfl hoffer hu
  case uninit =>
    intro i hi
    refine exec_of_commandStatus_errUninit (commandStatus_eq_errUninit_iff.2 ?_)
    obtain hext | hrd | htg := hi
    · exact .inl ⟨.inl hext, hcur⟩
    · exact .inl ⟨.inr hrd, hcur⟩
    · exact .inr ⟨htg, hphase⟩

/-! ## A response that is never taken -/

/-- A host that offers no word but `w`, before as now, is steady (R67, R186). -/
theorem hostSteady_of_only_word (hheld : s.heldCmd = none ∨ s.heldCmd = some w)
    (hword : p.cmdValid = true → p.cmdWord = w) : hostSteady p s = true := by
  unfold hostSteady
  obtain hnone | hsome := hheld
  · rw [hnone]
  · rw [hsome]
    cases hvalid : p.cmdValid with
    | false => rfl
    | true => simp [hword hvalid]

/-- A host that offers no word but `w` leaves none but `w` remembered. -/
theorem offerHeld_of_only_word (hword : p.cmdValid = true → p.cmdWord = w) (s : State) :
    offerHeld p s = none ∨ offerHeld p s = some w := by
  unfold offerHeld
  split
  case isTrue hoffer => exact .inr (congrArg some (hword (Bool.and_eq_true_iff.1 hoffer).1))
  case isFalse => exact .inl rfl

/-- With a response presented that the host does not take, a step uses up the host's input and nothing else happens. -/
theorem step_response_untaken (hbusy : s.ifBusy = true) (hpresented : s.rspValid = true) (hrst : s.portIn.rst = false)
    (hready : s.portIn.rspReady = false) (hsteady : hostSteady s.portIn s = true) : step s = .next s.useInput :=
  step_next_iff.2 (.inr ⟨hrst, hsteady, .inr (.inr (.inr (.inl ⟨hbusy, hpresented, hready, rfl⟩)))⟩)

/-- Settles O51, by induction on the inputs: each step uses one up and leaves the response presented, with `w` or no word
remembered. -/
theorem untakenResponseHangsTheBlock : Obligations.UntakenResponseHangsTheBlock := by
  intro s w ps
  induction ps generalizing s with
  | nil =>
    rintro rest - - - rfl -
    exact ⟨s.heldCmd, rfl⟩
  | cons p ps ih =>
    intro rest hbusy hpresented hheld hin hps
    obtain ⟨⟨hrst, hready, hword⟩, hps'⟩ := List.forall_mem_cons.1 hps
    obtain rfl : s.portIn = p := by simp [State.portIn, hin]
    have hstep : step s = .next s.useInput :=
      step_response_untaken hbusy hpresented hrst hready (hostSteady_of_only_word hheld hword)
    have htail : s.useInput.inputs = ps ++ rest := by simp [hin]
    obtain ⟨h, hrun⟩ := ih s.useInput rest hbusy hpresented (offerHeld_of_only_word hword s) htail hps'
    exact ⟨h, (core_run_succ hstep).trans hrun⟩

end Sys2Proof.Machine
end
